-- ==== Sys2Proof/Word.lean ====
section
/-! DEFINITION. The word, the byte, the names of the eight general registers and the register file as
plain data. Reading and writing a register are operations of Machine/Ops.lean. -/

namespace Sys2Proof

/-- A register slot, a memory cell, an address or an instruction word: 16 bits (R7, R8, R90).
Arithmetic on it wraps modulo 2^16 (R23). -/
abbrev Word := BitVec 16

/-- One byte of the input or the output stream (R49, R50). -/
abbrev Byte := BitVec 8

/-- The eight general registers R0 to R7 (R9, R31).
None is hard-wired, banked or an alias of another. -/
inductive Reg where
  | r0 | r1 | r2 | r3 | r4 | r5 | r6 | r7
deriving DecidableEq, Repr

/-- The contents of the eight general registers, each 16 bits wide (R30, R31).
The sentinel slot of R30 is not architectural and is not here. -/
structure RegFile where
  r0 : Word
  r1 : Word
  r2 : Word
  r3 : Word
  r4 : Word
  r5 : Word
  r6 : Word
  r7 : Word
deriving DecidableEq, Repr

end Sys2Proof
end

