-- ==== Sys2Proof/Config.lean ====
section
/-! DEFINITION. The parameters of a launch (00_scope.md R11 to R19) and their defaults, and the one
value that the spec leaves wholly open, the text of the halt notice. -/

namespace Sys2Proof

/-- The text of the "fixed halt notice" of the machine that a run from reset stands for.
R17 and D18 leave it OPEN with no default, so it is a free value: a constant with no body. -/
opaque Config.haltNotice : List Byte

/-- The parameters of a launch (R11 to R19).
The spec has the model take them as arguments; the step takes none, so State holds this record and no
step changes it (log entry 1).
A claim about every state is thereby a claim about every value of the parameters. -/
structure Params where
  /-- START_PC (R11): the value of PC when execution begins. -/
  startPc : Word
  /-- KBSR_ADDR (R12): the address of the keyboard status cell. -/
  kbsrAddr : Word
  /-- KBDR_ADDR (R13): the address of the keyboard data cell. -/
  kbdrAddr : Word
  /-- LEA_SETS_CC (R14): whether LEA updates COND. -/
  leaSetsCc : Bool
  /-- TRAP_LINKS_R7 (R15): whether a TRAP writes the advanced PC into R7. -/
  trapLinksR7 : Bool
  /-- JSRR_LINK_FIRST (R16): whether JSRR writes R7 before it reads its base register. -/
  jsrrLinkFirst : Bool
  /-- HALT_NOTICE (R17): the bytes HALT writes. -/
  haltNotice : List Byte
  /-- IN_PROMPT (R18): the bytes IN writes before it reads its character. -/
  inPrompt : List Byte
  /-- INIT_GPR (R19): the values of R0 to R7 when execution begins. -/
  initGpr : RegFile
deriving DecidableEq, Repr

/-- Every general register 0x0000: the default of INIT_GPR (R19, D14). -/
def RegFile.zero : RegFile := ⟨0, 0, 0, 0, 0, 0, 0, 0⟩

/-- The defaults that R11 to R19 recommend; HALT_NOTICE, which has none, is the free value
`Config.haltNotice` (log entries 1, 2, 3, 4). -/
def Params.default : Params where
  startPc := 0x3000
  kbsrAddr := 0xFE00
  kbdrAddr := 0xFE02
  leaSetsCc := true
  trapLinksR7 := false
  jsrrLinkFirst := true
  haltNotice := Config.haltNotice
  inPrompt := []
  initGpr := RegFile.zero

/-- The one condition the spec puts on the parameters: KBDR_ADDR ≠ KBSR_ADDR (R13). -/
def Params.wf (p : Params) : Bool := p.kbdrAddr != p.kbsrAddr

end Sys2Proof
end

