-- ==== Sys2Proof/Machine/State.lean ====
section
/-! DEFINITION. The state of the core as plain data (10_state.md), the reasons it stops, and its reset.
Operations on it are in Machine/Ops.lean. -/

namespace Sys2Proof.Machine

/-- The condition register COND: exactly one of three values (R37). Its numeric encoding is not
observable (R39), so it has none here. -/
inductive Cond where
  | neg | zro | pos
deriving DecidableEq, Repr

/-- The faults the core raises (R241): the closed set of reasons a run ends in `Faulted`.
The state after a fault is part of the spec (R242), so raising one is a next state whose run status
holds the reason and the word; no step answers `Host.Outcome.fault`. -/
inductive Fault where
  /-- Cause code 1. Raised at decode by any word whose top nibble is 0x8 or 0xD (R230, R231).
  Safe: the spec names this fault for exactly these words. -/
  | reservedOpcode
  /-- Cause code 2. Raised at dispatch by a TRAP whose code is not 0x20 to 0x25 (R213).
  Safe: the spec names this fault for exactly these words. -/
  | unknownTrapCode
  /-- Cause code 3. Raised by GETC and IN at `InByte()` when the input has ended with no byte left (R216).
  Safe: it gives no value (D16). -/
  | inputExhausted
deriving DecidableEq, Repr

/-- The reasons the model itself would give for having no meaning for an instruction. -/
inductive Refusal where
  /-- An arm of `exec` with no meaning yet; no arm answers it. Safe: the model stops. -/
  | notModelled (mnemonic : String)
deriving DecidableEq, Repr

/-- The run status of the engine (R48). `halted` and `faulted` are final. -/
inductive RunStatus where
  | running
  | halted
  | faulted (reason : Fault) (instr : Word)
deriving DecidableEq, Repr

/-- One byte the host is to deliver, with the host's answers to the availability checks made before the
byte is taken: `notReady` of them still answer "not ready", the ones after answer "ready" (R252, D36).
`InByte()` takes the byte whatever `notReady` is, since it waits (R49). -/
structure Keystroke where
  byte : Byte
  notReady : Nat
deriving DecidableEq, Repr

/-- What is left of the input stream (R49): the host's part of a run, held as data (log entry 5). -/
structure Input where
  /-- The bytes the host delivers, next one first. -/
  keys : List Keystroke
  /-- A byte the host delivers over and over once `keys` is used up; `none` for a host that does not. -/
  endless : Option Keystroke
  /-- Whether the host has ended the input after these bytes; if not, `InByte()` waits there. -/
  ended : Bool
deriving DecidableEq, Repr

/-- A host that has neither delivered a byte nor ended the input. -/
def Input.silent : Input := ⟨[], none, false⟩

/-- What `InByte()` finds (R49, R216, R252): a byte and the input after it, no byte yet, or the end. -/
inductive InByte where
  | byte (b : Byte) (rest : Input)
  | waits
  | exhausted
deriving DecidableEq, Repr

/-- The content of memory (R43): the listed cells, by cell number, rising.
The unit is the spec's 16-bit cell; nothing in the core addresses a byte (R67, log entry 10). -/
abbrev Memory := List (Nat × Word)

/-- What a cell that is not listed holds: the reset content of memory (R44). -/
abbrev Memory.unlisted : Word := 0

/-- The whole state of the core (10_state.md): registers, PC, COND, memory, run status and the host's
two streams, and with them the parameters of the launch, which no step changes (log entry 1). -/
structure State where
  /-- R0 to R7 (R31). -/
  regs : RegFile
  /-- The program counter, a cell number (R34). -/
  pc : Word
  /-- The condition register (R37). -/
  cond : Cond
  /-- The 65536 cells, the keyboard's two among them (R43, R45, R46). -/
  mem : Memory
  /-- The run status (R48). -/
  status : RunStatus
  /-- The input stream not yet consumed (R49). -/
  input : Input
  /-- The output stream, oldest byte first (R50). -/
  output : List Byte
  /-- The parameters of the launch (R11 to R19). -/
  params : Params
deriving DecidableEq, Repr

/-- What a meaning answers. -/
abbrev Result := Host.Outcome State Fault Refusal

/-- The state at the first fetch of a launch with nothing loaded (R52, R270), for given parameters and a
given host. -/
def State.resetWith (p : Params) (input : Input) : State where
  regs := p.initGpr
  pc := p.startPc
  cond := .zro
  mem := []
  status := .running
  input := input
  output := []
  params := p

/-- The machine right after reset (R52): the default parameters, nothing loaded, and a host that has not
acted yet (log entry 5). -/
def State.reset : State := State.resetWith Params.default Input.silent

end Sys2Proof.Machine
end

