-- ==== Sys2Proof/Machine/Ops.lean ====
section
/-! DEFINITION. The named operations over registers, memory, the keyboard device, the host's streams and
the run status, each from its own rule of the spec. -/

namespace Sys2Proof

/-- The value of a general register (R31). -/
def RegFile.get (f : RegFile) : Reg → Word
  | .r0 => f.r0
  | .r1 => f.r1
  | .r2 => f.r2
  | .r3 => f.r3
  | .r4 => f.r4
  | .r5 => f.r5
  | .r6 => f.r6
  | .r7 => f.r7

/-- The register file with one general register written (R31, R33). -/
def RegFile.set (f : RegFile) (r : Reg) (v : Word) : RegFile :=
  match r with
  | .r0 => { f with r0 := v }
  | .r1 => { f with r1 := v }
  | .r2 => { f with r2 := v }
  | .r3 => { f with r3 := v }
  | .r4 => { f with r4 := v }
  | .r5 => { f with r5 := v }
  | .r6 => { f with r6 := v }
  | .r7 => { f with r7 := v }

end Sys2Proof

namespace Sys2Proof.Machine

/-! ## One field at a time -/

/-- `x[r]` (R24). -/
def State.reg (s : State) (r : Reg) : Word := s.regs.get r

/-- `x[r] <- v` (R24). -/
def State.setReg (s : State) (r : Reg) (v : Word) : State := { s with regs := s.regs.set r v }

/-- `pc <- v` (R24). -/
def State.setPc (s : State) (v : Word) : State := { s with pc := v }

/-- COND written; only the derivation of R37 does so (R38). -/
def State.setCond (s : State) (c : Cond) : State := { s with cond := c }

/-- The memory replaced. -/
def State.setMem (s : State) (m : Memory) : State := { s with mem := m }

/-- The input stream replaced by what is left of it. -/
def State.setInput (s : State) (i : Input) : State := { s with input := i }

/-- The run status written (R48). -/
def State.setStatus (s : State) (r : RunStatus) : State := { s with status := r }

/-- `Out(bytes)`: append to the output stream at once, since every routine flushes (R50, R227). -/
def State.out (s : State) (bs : List Byte) : State := { s with output := s.output ++ bs }

/-! ## Memory in its canonical form -/

/-- The content of one cell (R43, R44). -/
def Memory.read : Memory → Nat → Word
  | [], _ => Memory.unlisted
  | (b, w) :: m, a => if b = a then w else Memory.read m a

/-- The memory without the entries of one cell. -/
def Memory.erase : Memory → Nat → Memory
  | [], _ => []
  | (b, w) :: m, a => if b = a then Memory.erase m a else (b, w) :: Memory.erase m a

/-- The memory with one entry more, put before the first entry of a higher cell. -/
def Memory.insert : Memory → Nat → Word → Memory
  | [], a, v => [(a, v)]
  | (b, w) :: m, a, v => if a < b then (a, v) :: (b, w) :: m else (b, w) :: Memory.insert m a v

/-- The memory after a cell is written (R43): a cell that holds the unlisted value has no entry. -/
def Memory.write (m : Memory) (a : Nat) (v : Word) : Memory :=
  if v = Memory.unlisted then m.erase a else (m.erase a).insert a v

/-- The canonical form from cell `lo` on: cell numbers strictly rising and below 65536, no entry equal to
the unlisted value. -/
def Memory.wfFrom : Nat → Memory → Bool
  | _, [] => true
  | lo, (a, v) :: m =>
    decide (lo ≤ a) && decide (a < 65536) && decide (v ≠ Memory.unlisted) && Memory.wfFrom (a + 1) m

/-- The canonical form of memory. -/
def Memory.wf (m : Memory) : Bool := Memory.wfFrom 0 m

/-- `M[a]`, the content of a cell, with no side effect (R43). -/
def State.cell (s : State) (a : Word) : Word := s.mem.read a.toNat

/-- `M[a] <- v` (R43). -/
def State.setCell (s : State) (a v : Word) : State := s.setMem (s.mem.write a.toNat v)

/-! ## The input stream -/

/-- The bytes still to come, next one first; once `keys` is used up, the endless byte if there is one. -/
def Input.upcoming (i : Input) : List Keystroke :=
  match i.keys with
  | [] => i.endless.toList
  | k :: ks => k :: ks

/-- The availability check and, when it finds a byte ready, the taking of that byte (R49, R61): `none` is
"not ready". With no byte left the answer is "not ready" (R252); otherwise it is the host's draw. -/
def Input.poll (i : Input) : Option Byte × Input :=
  match i.upcoming with
  | [] => (none, i)
  | ⟨b, 0⟩ :: ks => (some b, { i with keys := ks })
  | ⟨b, n + 1⟩ :: ks => (none, { i with keys := ⟨b, n⟩ :: ks })

/-- `InByte()` (R49, R216, R252). -/
def Input.inByte (i : Input) : InByte :=
  match i.upcoming with
  | k :: ks => .byte k.byte { i with keys := ks }
  | [] => if i.ended then .exhausted else .waits

/-- The byte that is the `n`-th still to come, counted from 0: each byte is taken once, in order (R49). -/
def Input.nth : Nat → Input → Option Byte
  | 0, i =>
    match i.upcoming with
    | k :: _ => some k.byte
    | [] => none
  | n + 1, i =>
    match i.upcoming with
    | _ :: ks => Input.nth n { i with keys := ks }
    | [] => none

/-! ## Memory access (20_memory.md) -/

/-- `zext` of a byte to 16 bits (R22, R217). -/
def zext (b : Byte) : Word := b.setWidth 16

/-- `KeyboardPoll()` (R61). -/
def State.keyboardPoll (s : State) : State :=
  match s.input.poll with
  | (some b, i) => ((s.setInput i).setCell s.params.kbsrAddr 0x8000).setCell s.params.kbdrAddr (zext b)
  | (none, i) => (s.setInput i).setCell s.params.kbsrAddr 0x0000

/-- `MemRead(a, 16)` (R60): the value read and the state after the read. Every read the core makes goes
through it (R63). -/
def State.memRead (s : State) (a : Word) : Word × State :=
  if a = s.params.kbsrAddr then (s.keyboardPoll.cell a, s.keyboardPoll) else (s.cell a, s)

/-- `MemWrite(a, 16, v)` (R64): a plain store at every address. -/
def State.memWrite (s : State) (a v : Word) : State := s.setCell a v

/-- The fetch (R35, R121): the cell at PC, read through `MemRead`, then PC advanced by one. -/
def State.fetch (s : State) : Word × State :=
  ((s.memRead s.pc).1, (s.memRead s.pc).2.setPc (s.pc + 1))

/-! ## Ends of a step -/

/-- `raise Fault(reason, instr)` (R240, R242): the run status becomes `Faulted(reason, instr)` and nothing
else changes; PC already holds the instruction's address plus 1. This is the core's only exception
entry, and there is no return from it (R248). -/
def State.raiseFault (s : State) (f : Fault) (instr : Word) : State := s.setStatus (.faulted f instr)

/-- The state of an instruction whose step has no outcome yet (R125, R226): PC back at the instruction, so
that the step stands as not taken and the run stays where it is (log entry 6). -/
def State.stepNotTaken (s : State) : State := s.setPc (s.pc - 1)

end Sys2Proof.Machine
end

