-- ==== Sys2Proof/Machine/Flags.lean ====
section
/-! DEFINITION. The condition register: how a value sets it and how BR tests it (10_state.md section 3). -/

namespace Sys2Proof.Machine

/-- The value of COND that a 16-bit value gives (R37). -/
def condOf (v : Word) : Cond :=
  if v = 0 then .zro else if v.getLsbD 15 then .neg else .pos

/-- `update_flags(r)`: COND recomputed from a register's current value (R37). -/
def State.updateFlags (s : State) (r : Reg) : State := s.setCond (condOf (s.reg r))

/-- `write_and_update(r, v)`: set the register, then update the flags from it (R37). -/
def State.writeAndUpdate (s : State) (r : Reg) (v : Word) : State := (s.setReg r v).updateFlags r

/-- Whether COND matches the n, z, p mask of a BR (R190). -/
def Cond.matchesMask (c : Cond) (n z p : Bool) : Bool :=
  match c with
  | .neg => n
  | .zro => z
  | .pos => p

end Sys2Proof.Machine
end

