-- ==== Sys2Proof/Machine/Operands.lean ====
section
/-! DEFINITION. The operand forms: sign extension (R21), the bytes of a word (R20), the effective
addresses of the three addressing modes (R159) and the branch targets. -/

namespace Sys2Proof.Machine

/-- An offset or immediate field widened to 16 bits by its sign (R21, R92). -/
def sextField {n : Nat} (f : BitVec n) : Word := f.signExtend 16

/-- `sext(v, n)` on a 16-bit value: its low n bits, widened by their sign (R21). -/
def sext (v : Word) (n : Nat) : Word := sextField (v.setWidth n)

/-- `v[7:0]` (R20). -/
def lowByte (v : Word) : Byte := v.extractLsb' 0 8

/-- `v[15:8]` (R20). -/
def highByte (v : Word) : Byte := v.extractLsb' 8 8

/-- PC-relative: the advanced PC plus a sign-extended offset, modulo 2^16 (R25, R66, R159). -/
def State.pcRelative {n : Nat} (s : State) (off : BitVec n) : Word := s.pc + sextField off

/-- Base plus offset, modulo 2^16 (R66, R159). -/
def State.baseOffset (s : State) (base : Reg) (off : BitVec 6) : Word := s.reg base + sextField off

/-- Indirect: the pointer cell read through `MemRead` (R159); the address and the state after the read. -/
def State.indirect (s : State) (off : BitVec 9) : Word × State := s.memRead (s.pcRelative off)

end Sys2Proof.Machine
end

