-- ==== Sys2Proof/Machine/Control.lean ====
section
/-! DEFINITION. Control transfer: BR, JMP (and RET), JSR and JSRR (43_control.md). -/

namespace Sys2Proof.Machine

/-- BR (R190): with nzp = 000 it never branches. -/
def execBr (n z p : Bool) (off : BitVec 9) (s : State) : Result :=
  if s.cond.matchesMask n z p then .next (s.setPc (s.pcRelative off)) else .next s

/-- JMP, and RET when the base is R7 (R192, R193). -/
def execJmp (base : Reg) (s : State) : Result := .next (s.setPc (s.reg base))

/-- JSR (R194): the advanced PC to R7, COND untouched, then the jump. -/
def execJsr (off : BitVec 11) (s : State) : Result :=
  .next ((s.setReg .r7 s.pc).setPc (s.pcRelative off))

/-- JSRR (R195): JSRR_LINK_FIRST decides whether the base is read after or before R7 is written (R16). -/
def execJsrr (base : Reg) (s : State) : Result :=
  if s.params.jsrrLinkFirst then .next ((s.setReg .r7 s.pc).setPc ((s.setReg .r7 s.pc).reg base))
  else .next ((s.setReg .r7 s.pc).setPc (s.reg base))

end Sys2Proof.Machine
end

