-- ==== Sys2Proof/Machine/DataMovement.lean ====
section
/-! DEFINITION. The loads LD, LDI, LDR, the address load LEA and the stores ST, STI, STR
(42_data_movement.md). -/

namespace Sys2Proof.Machine

/-- A load: `MemRead` of an address, the value to a register through `write_and_update` (R160 to R163). -/
def State.loadInto (s : State) (dr : Reg) (a : Word) : State :=
  (s.memRead a).2.writeAndUpdate dr (s.memRead a).1

/-- LD (R160). -/
def execLd (dr : Reg) (off : BitVec 9) (s : State) : Result := .next (s.loadInto dr (s.pcRelative off))

/-- LDI (R161): the pointer cell is read first, then the cell it points to (R162). -/
def execLdi (dr : Reg) (off : BitVec 9) (s : State) : Result :=
  .next ((s.indirect off).2.loadInto dr (s.indirect off).1)

/-- LDR (R163). -/
def execLdr (dr base : Reg) (off : BitVec 6) (s : State) : Result :=
  .next (s.loadInto dr (s.baseOffset base off))

/-- LEA (R165): no memory access; COND only when LEA_SETS_CC (R14). -/
def execLea (dr : Reg) (off : BitVec 9) (s : State) : Result :=
  if s.params.leaSetsCc then .next (s.writeAndUpdate dr (s.pcRelative off))
  else .next (s.setReg dr (s.pcRelative off))

/-- ST (R170). -/
def execSt (sr : Reg) (off : BitVec 9) (s : State) : Result :=
  .next (s.memWrite (s.pcRelative off) (s.reg sr))

/-- STI (R171): the pointer cell is read through `MemRead`, then the store. -/
def execSti (sr : Reg) (off : BitVec 9) (s : State) : Result :=
  .next ((s.indirect off).2.memWrite (s.indirect off).1 (s.reg sr))

/-- STR (R173). -/
def execStr (sr base : Reg) (off : BitVec 6) (s : State) : Result :=
  .next (s.memWrite (s.baseOffset base off) (s.reg sr))

end Sys2Proof.Machine
end

