-- ==== Sys2Proof/Machine/Operate.lean ====
section
/-! DEFINITION. The operate instructions ADD, AND and NOT (41_operate.md). -/

namespace Sys2Proof.Machine

/-- ADD, register form (R140). -/
def execAddReg (dr sr1 sr2 : Reg) (s : State) : Result :=
  .next (s.writeAndUpdate dr (s.reg sr1 + s.reg sr2))

/-- ADD, immediate form (R141). -/
def execAddImm (dr sr1 : Reg) (imm : BitVec 5) (s : State) : Result :=
  .next (s.writeAndUpdate dr (s.reg sr1 + sextField imm))

/-- AND, register form (R143). -/
def execAndReg (dr sr1 sr2 : Reg) (s : State) : Result :=
  .next (s.writeAndUpdate dr (s.reg sr1 &&& s.reg sr2))

/-- AND, immediate form (R144). -/
def execAndImm (dr sr1 : Reg) (imm : BitVec 5) (s : State) : Result :=
  .next (s.writeAndUpdate dr (s.reg sr1 &&& sextField imm))

/-- NOT (R146). -/
def execNot (dr sr : Reg) (s : State) : Result :=
  .next (s.writeAndUpdate dr (~~~ s.reg sr))

end Sys2Proof.Machine
end

