-- ==== Sys2Proof/Syntax.lean ====
section
/-! DEFINITION. The instructions: one constructor per row of spec/opcode_table.json, in its order.
A field named `ign`, `ignHi` or `ignLo` holds bits that the instruction ignores (R94): they are kept so
that an instruction stands for exactly one word, the one a fault records (R240). -/

namespace Sys2Proof

/-- The instruction set (R95, R96, R100). -/
inductive Instr where
  /-- BR, format PC9 (R190): the mask n, z, p and PCoffset9. -/
  | br (n z p : Bool) (off : BitVec 9)
  /-- ADD, register form, format OPR (R140). -/
  | addReg (dr sr1 : Reg) (ign : BitVec 2) (sr2 : Reg)
  /-- ADD, immediate form, format OPI (R141). -/
  | addImm (dr sr1 : Reg) (imm : BitVec 5)
  /-- LD, format PC9 (R160). -/
  | ld (dr : Reg) (off : BitVec 9)
  /-- ST, format PC9 (R170). -/
  | st (sr : Reg) (off : BitVec 9)
  /-- JSR, format PC11 (R194). -/
  | jsr (off : BitVec 11)
  /-- JSRR, format JSRR (R195). -/
  | jsrr (ignHi : BitVec 2) (base : Reg) (ignLo : BitVec 6)
  /-- AND, register form, format OPR (R143). -/
  | andReg (dr sr1 : Reg) (ign : BitVec 2) (sr2 : Reg)
  /-- AND, immediate form, format OPI (R144). -/
  | andImm (dr sr1 : Reg) (imm : BitVec 5)
  /-- LDR, format BASE6 (R163). -/
  | ldr (dr base : Reg) (off : BitVec 6)
  /-- STR, format BASE6 (R173). -/
  | str (sr base : Reg) (off : BitVec 6)
  /-- NOT, format NOT (R146). -/
  | not (dr sr : Reg) (ign : BitVec 6)
  /-- LDI, format PC9 (R161). -/
  | ldi (dr : Reg) (off : BitVec 9)
  /-- STI, format PC9 (R171). -/
  | sti (sr : Reg) (off : BitVec 9)
  /-- JMP, format JMP (R192); RET is JMP with base R7 (R193). -/
  | jmp (ignHi : BitVec 3) (base : Reg) (ignLo : BitVec 6)
  /-- LEA, format PC9 (R165). -/
  | lea (dr : Reg) (off : BitVec 9)
  /-- TRAP x20, GETC (R215). -/
  | trapGetc (ign : BitVec 4)
  /-- TRAP x21, OUT (R219). -/
  | trapOut (ign : BitVec 4)
  /-- TRAP x22, PUTS (R221). -/
  | trapPuts (ign : BitVec 4)
  /-- TRAP x23, IN (R222). -/
  | trapIn (ign : BitVec 4)
  /-- TRAP x24, PUTSP (R223). -/
  | trapPutsp (ign : BitVec 4)
  /-- TRAP x25, HALT (R225). -/
  | trapHalt (ign : BitVec 4)
  /-- TRAP with a code outside 0x20 to 0x25 (R213). -/
  | trapUnknown (ign : BitVec 4) (code : BitVec 8)
  /-- Opcode 0x8, RTI, reserved (R230). -/
  | rti (ign : BitVec 12)
  /-- Opcode 0xD, RES, reserved (R231). -/
  | res (ign : BitVec 12)
deriving DecidableEq, Repr

end Sys2Proof
end

