-- ==== Sys2Proof/WellFormed.lean ====
section
/-! DEFINITION. Which terms of Instr are instructions. The types of the fields bound every operand, so
one check is left: a TRAP of the unrecognised row does not carry a recognised code. -/

namespace Sys2Proof

/-- The six trap codes of the trap table (R211). -/
def recognisedTrapCodes : List (BitVec 8) := [0x20, 0x21, 0x22, 0x23, 0x24, 0x25]

/-- Whether a trap code selects one of the six routines (R210, R211). -/
def isRecognisedTrapCode (code : BitVec 8) : Bool := recognisedTrapCodes.contains code

/-- A term is well formed unless it is the unrecognised-TRAP row with a recognised code (R98, R213). -/
def Instr.wellFormed : Instr → Bool
  | .br _ _ _ _ => true
  | .addReg _ _ _ _ => true
  | .addImm _ _ _ => true
  | .ld _ _ => true
  | .st _ _ => true
  | .jsr _ => true
  | .jsrr _ _ _ => true
  | .andReg _ _ _ _ => true
  | .andImm _ _ _ => true
  | .ldr _ _ _ => true
  | .str _ _ _ => true
  | .not _ _ _ => true
  | .ldi _ _ => true
  | .sti _ _ => true
  | .jmp _ _ _ => true
  | .lea _ _ => true
  | .trapGetc _ => true
  | .trapOut _ => true
  | .trapPuts _ => true
  | .trapIn _ => true
  | .trapPutsp _ => true
  | .trapHalt _ => true
  | .trapUnknown _ code => !isRecognisedTrapCode code
  | .rti _ => true
  | .res _ => true

end Sys2Proof
end

