-- ==== Sys2Proof/Decode.lean ====
section
/-! DEFINITION. The decoder (30_encoding.md), total on every 16-bit word: each word is some row of the
opcode table, the fatal rows by their own constructors. After it the encoder, from the format table of
R95, and the opcode table itself as masks and matches. -/

namespace Sys2Proof

/-! ## Field extractors (R91) -/

/-- The register that a 3-bit register field names (R31, R91): it always succeeds. -/
def Reg.ofBits (b : BitVec 3) : Reg :=
  match b.getLsbD 2, b.getLsbD 1, b.getLsbD 0 with
  | false, false, false => .r0
  | false, false, true => .r1
  | false, true, false => .r2
  | false, true, true => .r3
  | true, false, false => .r4
  | true, false, true => .r5
  | true, true, false => .r6
  | true, true, true => .r7

/-- The 3-bit number of a register (R31). -/
def Reg.bits : Reg → BitVec 3
  | .r0 => 0
  | .r1 => 1
  | .r2 => 2
  | .r3 => 3
  | .r4 => 4
  | .r5 => 5
  | .r6 => 6
  | .r7 => 7

/-- The closed set of sixteen opcodes, the two reserved ones among them (R96, C2). -/
inductive Opcode where
  | br | add | ld | st | jsr | and | ldr | str | rti | not | ldi | sti | jmp | res | lea | trap
deriving DecidableEq, Repr

/-- The opcode map of R96, from the top nibble, bit 3 of the nibble first. -/
def Opcode.ofNibble (x : BitVec 4) : Opcode :=
  match x.getLsbD 3, x.getLsbD 2, x.getLsbD 1, x.getLsbD 0 with
  | false, false, false, false => .br
  | false, false, false, true => .add
  | false, false, true, false => .ld
  | false, false, true, true => .st
  | false, true, false, false => .jsr
  | false, true, false, true => .and
  | false, true, true, false => .ldr
  | false, true, true, true => .str
  | true, false, false, false => .rti
  | true, false, false, true => .not
  | true, false, true, false => .ldi
  | true, false, true, true => .sti
  | true, true, false, false => .jmp
  | true, true, false, true => .res
  | true, true, true, false => .lea
  | true, true, true, true => .trap

/-- `opcode(instr)`: the top four bits (R91, R96). -/
def opcode (w : Word) : Opcode := .ofNibble (w.extractLsb' 12 4)

/-- instr[11:9]: DR, or SR of the stores (R91). -/
def destinationRegister (w : Word) : Reg := .ofBits (w.extractLsb' 9 3)

/-- instr[8:6]: SR1, SR of NOT, or BaseR (R91). -/
def sourceRegister1 (w : Word) : Reg := .ofBits (w.extractLsb' 6 3)

/-- instr[2:0]: SR2 (R91). -/
def sourceRegister2 (w : Word) : Reg := .ofBits (w.extractLsb' 0 3)

/-- instr[5]: the immediate form of ADD and AND (R91, R97, R145). -/
def isImmediateMode (w : Word) : Bool := w.getLsbD 5

/-- instr[4:0]: imm5 (R91). The decoder reads it only when `isImmediateMode` holds (R93). -/
def immediate5 (w : Word) : BitVec 5 := w.extractLsb' 0 5

/-- instr[5:0]: offset6 of LDR and STR (R91). -/
def offset6 (w : Word) : BitVec 6 := w.extractLsb' 0 6

/-- instr[8:0]: PCoffset9 (R91). -/
def pcOffset9 (w : Word) : BitVec 9 := w.extractLsb' 0 9

/-- instr[10:0]: PCoffset11 of JSR (R91). -/
def pcOffset11 (w : Word) : BitVec 11 := w.extractLsb' 0 11

/-- instr[11]: 1 selects JSR, 0 selects JSRR (R91, R97). -/
def isPcRelativeCall (w : Word) : Bool := w.getLsbD 11

/-- instr[7:0]: the trap code, unsigned (R91, R92). -/
def trapCode (w : Word) : BitVec 8 := w.extractLsb' 0 8

/-! ## The decoder -/

/-- The trap routine that a trap code selects (R210, R211), the unrecognised codes last (R213). -/
def decodeTrap (ign : BitVec 4) (code : BitVec 8) : Instr :=
  if code = 0x20 then .trapGetc ign
  else if code = 0x21 then .trapOut ign
  else if code = 0x22 then .trapPuts ign
  else if code = 0x23 then .trapIn ign
  else if code = 0x24 then .trapPutsp ign
  else if code = 0x25 then .trapHalt ign
  else .trapUnknown ign code

/-- The instruction a word stands for (R95 to R98, R123). Every word stands for one: the two illegal
kinds of R98 are the constructors `rti`, `res` and `trapUnknown`. -/
def decode (w : Word) : Instr :=
  match opcode w with
  | .br => .br (w.getLsbD 11) (w.getLsbD 10) (w.getLsbD 9) (pcOffset9 w)
  | .add =>
    if isImmediateMode w then .addImm (destinationRegister w) (sourceRegister1 w) (immediate5 w)
    else .addReg (destinationRegister w) (sourceRegister1 w) (w.extractLsb' 3 2) (sourceRegister2 w)
  | .ld => .ld (destinationRegister w) (pcOffset9 w)
  | .st => .st (destinationRegister w) (pcOffset9 w)
  | .jsr =>
    if isPcRelativeCall w then .jsr (pcOffset11 w)
    else .jsrr (w.extractLsb' 9 2) (sourceRegister1 w) (w.extractLsb' 0 6)
  | .and =>
    if isImmediateMode w then .andImm (destinationRegister w) (sourceRegister1 w) (immediate5 w)
    else .andReg (destinationRegister w) (sourceRegister1 w) (w.extractLsb' 3 2) (sourceRegister2 w)
  | .ldr => .ldr (destinationRegister w) (sourceRegister1 w) (offset6 w)
  | .str => .str (destinationRegister w) (sourceRegister1 w) (offset6 w)
  | .rti => .rti (w.extractLsb' 0 12)
  | .not => .not (destinationRegister w) (sourceRegister1 w) (w.extractLsb' 0 6)
  | .ldi => .ldi (destinationRegister w) (pcOffset9 w)
  | .sti => .sti (destinationRegister w) (pcOffset9 w)
  | .jmp => .jmp (w.extractLsb' 9 3) (sourceRegister1 w) (w.extractLsb' 0 6)
  | .res => .res (w.extractLsb' 0 12)
  | .lea => .lea (destinationRegister w) (pcOffset9 w)
  | .trap => decodeTrap (w.extractLsb' 8 4) (trapCode w)

/-- The decoder on a word of the opcode table: `nbits` bits of `w`, every bit above them 0.
An instruction is one 16-bit cell (R90) and the decoder rejects none, so it always answers. -/
def decodeTableWord (nbits w : Nat) : Option Instr :=
  some (decode (BitVec.ofNat 16 (w % 2 ^ nbits)))

/-! ## The encoder (R95, the format table, and R96, the nibbles) -/

/-- Format PC9: opcode, a 3-bit register or mask field, PCoffset9. -/
def encodePC9 (op : BitVec 4) (r : BitVec 3) (off : BitVec 9) : Word := op ++ r ++ off

/-- Format OPR: opcode, DR, SR1, 0, two ignored bits, SR2. -/
def encodeOPR (op : BitVec 4) (dr sr1 : Reg) (ign : BitVec 2) (sr2 : Reg) : Word :=
  op ++ dr.bits ++ sr1.bits ++ 0#1 ++ ign ++ sr2.bits

/-- Format OPI: opcode, DR, SR1, 1, imm5. -/
def encodeOPI (op : BitVec 4) (dr sr1 : Reg) (imm : BitVec 5) : Word :=
  op ++ dr.bits ++ sr1.bits ++ 1#1 ++ imm

/-- Formats BASE6, NOT and JMP: opcode, two 3-bit fields, six bits. -/
def encodeBASE6 (op : BitVec 4) (hi base : BitVec 3) (lo : BitVec 6) : Word := op ++ hi ++ base ++ lo

/-- Format TRAP: the nibble 0xF, four ignored bits, the trap code. -/
def encodeTRAP (ign : BitVec 4) (code : BitVec 8) : Word := 0xF#4 ++ ign ++ code

/-- The word of an instruction. -/
def encode : Instr → Word
  | .br n z p off => encodePC9 0x0 (BitVec.ofBool n ++ BitVec.ofBool z ++ BitVec.ofBool p) off
  | .addReg dr sr1 ign sr2 => encodeOPR 0x1 dr sr1 ign sr2
  | .addImm dr sr1 imm => encodeOPI 0x1 dr sr1 imm
  | .ld dr off => encodePC9 0x2 dr.bits off
  | .st sr off => encodePC9 0x3 sr.bits off
  | .jsr off => 0x4#4 ++ 1#1 ++ off
  | .jsrr ignHi base ignLo => 0x4#4 ++ 0#1 ++ ignHi ++ base.bits ++ ignLo
  | .andReg dr sr1 ign sr2 => encodeOPR 0x5 dr sr1 ign sr2
  | .andImm dr sr1 imm => encodeOPI 0x5 dr sr1 imm
  | .ldr dr base off => encodeBASE6 0x6 dr.bits base.bits off
  | .str sr base off => encodeBASE6 0x7 sr.bits base.bits off
  | .not dr sr ign => encodeBASE6 0x9 dr.bits sr.bits ign
  | .ldi dr off => encodePC9 0xA dr.bits off
  | .sti sr off => encodePC9 0xB sr.bits off
  | .jmp ignHi base ignLo => encodeBASE6 0xC ignHi base.bits ignLo
  | .lea dr off => encodePC9 0xE dr.bits off
  | .trapGetc ign => encodeTRAP ign 0x20
  | .trapOut ign => encodeTRAP ign 0x21
  | .trapPuts ign => encodeTRAP ign 0x22
  | .trapIn ign => encodeTRAP ign 0x23
  | .trapPutsp ign => encodeTRAP ign 0x24
  | .trapHalt ign => encodeTRAP ign 0x25
  | .trapUnknown ign code => encodeTRAP ign code
  | .rti ign => 0x8#4 ++ ign
  | .res ign => 0xD#4 ++ ign

/-! ## The opcode table (R100) -/

/-- One row of spec/opcode_table.json: the bits it fixes and their values. -/
structure TableRow where
  mnemonic : String
  mask : Word
  value : Word
deriving DecidableEq, Repr

/-- Whether a word lies in a row: `(word & mask) = match` (R100). -/
def TableRow.covers (r : TableRow) (w : Word) : Bool := w &&& r.mask == r.value

/-- The rows BR to STR. -/
def opcodeTableLow : List TableRow :=
  [⟨"BR", 0xF000, 0x0000⟩, ⟨"ADD", 0xF020, 0x1000⟩, ⟨"ADD", 0xF020, 0x1020⟩,
   ⟨"LD", 0xF000, 0x2000⟩, ⟨"ST", 0xF000, 0x3000⟩, ⟨"JSR", 0xF800, 0x4800⟩,
   ⟨"JSRR", 0xF800, 0x4000⟩, ⟨"AND", 0xF020, 0x5000⟩, ⟨"AND", 0xF020, 0x5020⟩,
   ⟨"LDR", 0xF000, 0x6000⟩, ⟨"STR", 0xF000, 0x7000⟩]

/-- The rows NOT to LEA. -/
def opcodeTableHigh : List TableRow :=
  [⟨"NOT", 0xF000, 0x9000⟩, ⟨"LDI", 0xF000, 0xA000⟩, ⟨"STI", 0xF000, 0xB000⟩,
   ⟨"JMP", 0xF000, 0xC000⟩, ⟨"LEA", 0xF000, 0xE000⟩]

/-- The TRAP rows and, last, the reserved and unrecognised-trap rows. -/
def opcodeTableTrap : List TableRow :=
  [⟨"TRAP_GETC", 0xF0FF, 0xF020⟩, ⟨"TRAP_OUT", 0xF0FF, 0xF021⟩, ⟨"TRAP_PUTS", 0xF0FF, 0xF022⟩,
   ⟨"TRAP_IN", 0xF0FF, 0xF023⟩, ⟨"TRAP_PUTSP", 0xF0FF, 0xF024⟩, ⟨"TRAP_HALT", 0xF0FF, 0xF025⟩,
   ⟨"TRAP__unrecognised_code", 0xF000, 0xF000⟩, ⟨"RTI__reserved", 0xF000, 0x8000⟩,
   ⟨"RES__reserved", 0xF000, 0xD000⟩]

/-- The opcode table in its order (R100). -/
def opcodeTable : List TableRow := opcodeTableLow ++ opcodeTableHigh ++ opcodeTableTrap

/-- The row of the opcode table that an instruction belongs to. -/
def Instr.row : Instr → TableRow
  | .br _ _ _ _ => ⟨"BR", 0xF000, 0x0000⟩
  | .addReg _ _ _ _ => ⟨"ADD", 0xF020, 0x1000⟩
  | .addImm _ _ _ => ⟨"ADD", 0xF020, 0x1020⟩
  | .ld _ _ => ⟨"LD", 0xF000, 0x2000⟩
  | .st _ _ => ⟨"ST", 0xF000, 0x3000⟩
  | .jsr _ => ⟨"JSR", 0xF800, 0x4800⟩
  | .jsrr _ _ _ => ⟨"JSRR", 0xF800, 0x4000⟩
  | .andReg _ _ _ _ => ⟨"AND", 0xF020, 0x5000⟩
  | .andImm _ _ _ => ⟨"AND", 0xF020, 0x5020⟩
  | .ldr _ _ _ => ⟨"LDR", 0xF000, 0x6000⟩
  | .str _ _ _ => ⟨"STR", 0xF000, 0x7000⟩
  | .not _ _ _ => ⟨"NOT", 0xF000, 0x9000⟩
  | .ldi _ _ => ⟨"LDI", 0xF000, 0xA000⟩
  | .sti _ _ => ⟨"STI", 0xF000, 0xB000⟩
  | .jmp _ _ _ => ⟨"JMP", 0xF000, 0xC000⟩
  | .lea _ _ => ⟨"LEA", 0xF000, 0xE000⟩
  | .trapGetc _ => ⟨"TRAP_GETC", 0xF0FF, 0xF020⟩
  | .trapOut _ => ⟨"TRAP_OUT", 0xF0FF, 0xF021⟩
  | .trapPuts _ => ⟨"TRAP_PUTS", 0xF0FF, 0xF022⟩
  | .trapIn _ => ⟨"TRAP_IN", 0xF0FF, 0xF023⟩
  | .trapPutsp _ => ⟨"TRAP_PUTSP", 0xF0FF, 0xF024⟩
  | .trapHalt _ => ⟨"TRAP_HALT", 0xF0FF, 0xF025⟩
  | .trapUnknown _ _ => ⟨"TRAP__unrecognised_code", 0xF000, 0xF000⟩
  | .rti _ => ⟨"RTI__reserved", 0xF000, 0x8000⟩
  | .res _ => ⟨"RES__reserved", 0xF000, 0xD000⟩

end Sys2Proof
end

