-- ==== Sys2Proof/Machine/Trap.lean ====
section
/-! DEFINITION. TRAP and its six built-in routines, the unrecognised trap codes and the two reserved
opcodes (44_trap.md). -/

namespace Sys2Proof.Machine

/-- The link of a TRAP with a recognised code: R7 gets the advanced PC when TRAP_LINKS_R7, without
touching COND (R212). -/
def State.trapLink (s : State) : State := if s.params.trapLinksR7 then s.setReg .r7 s.pc else s

/-- The common part of GETC and IN (R215, R222): write the prompt, take a byte, echo it if asked, store it
zero-extended in R0 and update the flags. At the end of input it faults with the prompt written (R216)
and no register, the R7 link of R212 included (R127, R242, log entry 9); with no byte yet it waits (R125).
`s` is the state before the R7 link. -/
def State.readCharacter (s : State) (prompt : List Byte) (echo : Bool) (instr : Word) : State :=
  match s.input.inByte with
  | .byte b rest =>
    (((s.trapLink.out prompt).setInput rest).out (if echo then [b] else [])).writeAndUpdate .r0 (zext b)
  | .exhausted => (s.out prompt).raiseFault .inputExhausted instr
  | .waits => s.stepNotTaken

/-- The bytes PUTS writes for a cell (R217, R221). -/
def putsBytes (c : Word) : List Byte := [lowByte c]

/-- The bytes PUTSP writes for a cell: the low byte, then the high byte if it is not zero (R223). -/
def putspBytes (c : Word) : List Byte :=
  if highByte c = 0 then [lowByte c] else [lowByte c, highByte c]

/-- The loop of PUTS and PUTSP for at most `fuel` cells from address `a` (R221, R223): read a cell through
`MemRead`; at a zero cell stop, otherwise write its bytes and go on at the next address, modulo 2^16.
`none` when no zero cell was read within the fuel. -/
def scanString (bytes : Word → List Byte) : Nat → Word → State → Option State
  | 0, _, _ => none
  | fuel + 1, a, s =>
    if (s.memRead a).1 = 0 then some (s.memRead a).2
    else scanString bytes fuel (a + 1) ((s.memRead a).2.out (bytes (s.memRead a).1))

/-- How many cells decide whether a scan ever reads a zero cell: each pass over the 65536 cells polls the
keyboard once, so after one pass for each byte still listed and two more, what a pass reads repeats
(R226). -/
def scanFuel (s : State) : Nat := 65536 * (s.input.keys.length + 2)

/-- The end of PUTS and PUTSP: where the scan ended, or, for a scan that never reads a zero cell and so a step
that never completes (R226), the state where the run stays. -/
def State.endScan (s : State) : Option State → State
  | some t => t
  | none => s.stepNotTaken

/-- PUTS and PUTSP (R221, R223): the scan from the address in R0. `s` is the state before the R7 link. -/
def State.writeString (s : State) (bytes : Word → List Byte) : State :=
  s.endScan (scanString bytes (scanFuel s) (s.reg .r0) s.trapLink)

/-- TRAP x20, GETC (R215). -/
def execTrapGetc (ign : BitVec 4) (s : State) : Result :=
  .next (s.readCharacter [] false (encode (.trapGetc ign)))

/-- TRAP x21, OUT (R219). -/
def execTrapOut (s : State) : Result := .next (s.trapLink.out [lowByte (s.reg .r0)])

/-- TRAP x22, PUTS (R221). -/
def execTrapPuts (s : State) : Result := .next (s.writeString putsBytes)

/-- TRAP x23, IN (R222). -/
def execTrapIn (ign : BitVec 4) (s : State) : Result :=
  .next (s.readCharacter s.params.inPrompt true (encode (.trapIn ign)))

/-- TRAP x24, PUTSP (R223). -/
def execTrapPutsp (s : State) : Result := .next (s.writeString putspBytes)

/-- TRAP x25, HALT (R225): the halt notice, then the run status `Halted`. -/
def execTrapHalt (s : State) : Result :=
  .next ((s.trapLink.out s.params.haltNotice).setStatus .halted)

/-- TRAP with an unrecognised code (R213): the fault is taken before any link. -/
def execTrapUnknown (ign : BitVec 4) (code : BitVec 8) (s : State) : Result :=
  .next (s.raiseFault .unknownTrapCode (encode (.trapUnknown ign code)))

/-- Opcode 0x8, RTI (R230). -/
def execRti (ign : BitVec 12) (s : State) : Result :=
  .next (s.raiseFault .reservedOpcode (encode (.rti ign)))

/-- Opcode 0xD, RES (R231). -/
def execRes (ign : BitVec 12) (s : State) : Result :=
  .next (s.raiseFault .reservedOpcode (encode (.res ign)))

end Sys2Proof.Machine
end

