-- ==== Sys2Proof/Machine/Dispatch.lean ====
section
/-! DEFINITION. The dispatch of the execute phase (R123): one arm per constructor of Instr. The state is
the one after the fetch, PC already advanced (R25). -/

namespace Sys2Proof.Machine

def exec (i : Instr) (s : State) : Host.Outcome State Fault Refusal :=
  match i with
  -- 43_control.md
  | .br n z p off => Sys2Proof.Machine.execBr n z p off s
  -- 41_operate.md
  | .addReg dr sr1 _ sr2 => Sys2Proof.Machine.execAddReg dr sr1 sr2 s
  | .addImm dr sr1 imm => Sys2Proof.Machine.execAddImm dr sr1 imm s
  -- 42_data_movement.md
  | .ld dr off => Sys2Proof.Machine.execLd dr off s
  | .st sr off => Sys2Proof.Machine.execSt sr off s
  -- 43_control.md
  | .jsr off => Sys2Proof.Machine.execJsr off s
  | .jsrr _ base _ => Sys2Proof.Machine.execJsrr base s
  -- 41_operate.md
  | .andReg dr sr1 _ sr2 => Sys2Proof.Machine.execAndReg dr sr1 sr2 s
  | .andImm dr sr1 imm => Sys2Proof.Machine.execAndImm dr sr1 imm s
  -- 42_data_movement.md
  | .ldr dr base off => Sys2Proof.Machine.execLdr dr base off s
  | .str sr base off => Sys2Proof.Machine.execStr sr base off s
  -- 41_operate.md
  | .not dr sr _ => Sys2Proof.Machine.execNot dr sr s
  -- 42_data_movement.md
  | .ldi dr off => Sys2Proof.Machine.execLdi dr off s
  | .sti sr off => Sys2Proof.Machine.execSti sr off s
  -- 43_control.md
  | .jmp _ base _ => Sys2Proof.Machine.execJmp base s
  -- 42_data_movement.md
  | .lea dr off => Sys2Proof.Machine.execLea dr off s
  -- 44_trap.md
  | .trapGetc ign => Sys2Proof.Machine.execTrapGetc ign s
  | .trapOut _ => Sys2Proof.Machine.execTrapOut s
  | .trapPuts _ => Sys2Proof.Machine.execTrapPuts s
  | .trapIn ign => Sys2Proof.Machine.execTrapIn ign s
  | .trapPutsp _ => Sys2Proof.Machine.execTrapPutsp s
  | .trapHalt _ => Sys2Proof.Machine.execTrapHalt s
  | .trapUnknown ign code => Sys2Proof.Machine.execTrapUnknown ign code s
  | .rti ign => Sys2Proof.Machine.execRti ign s
  | .res ign => Sys2Proof.Machine.execRes ign s

end Sys2Proof.Machine
end

