-- ==== Sys2Proof/Machine/Step.lean ====
section
/-! DEFINITION. One step of the engine (R120), and how the host of this pipeline places one instruction. -/

namespace Sys2Proof.Machine

/-- One step (R120): while the run status is `Running`, fetch, decode and execute; `Halted` and `Faulted`
are final, no instruction is fetched and no state changes (R48). -/
def step (s : State) : Host.Outcome State Fault Refusal :=
  match s.status with
  | .running => exec (decode s.fetch.1) s.fetch.2
  | .halted => .next s
  | .faulted _ _ => .next s

/-- The state with an instruction word in the cell that the next fetch reads, and the engine running.
At KBSR_ADDR no stored word is ever fetched (R64), so there it only stores. -/
def State.withFetchWord (s : State) (nbits w : Nat) : State :=
  (s.setCell s.pc (BitVec.ofNat 16 (w % 2 ^ nbits))).setStatus .running

end Sys2Proof.Machine
end

