-- ==== Sys2Proof/Machine/Environment.lean ====
section
/-! DEFINITION. What the host can do to a machine between two steps (60_exceptions.md R252): deliver a
byte or end the input, and nothing else. -/

namespace Sys2Proof.Machine

/-- The host delivers one byte more, after those still to come, unless it has ended the input. -/
def State.supply (s : State) (k : Keystroke) : State :=
  if s.input.ended then s else s.setInput { s.input with keys := s.input.keys ++ [k] }

/-- The host ends the input after the bytes still to come. -/
def State.endInput (s : State) : State := s.setInput { s.input with ended := true }

end Sys2Proof.Machine
end

