-- ==== Sys2Proof/Machine/Loader.lean ====
section
/-! DEFINITION. What the program loader presents to the core (70_reset_and_hazards.md R272 to R274) and
the launch of a run (R270, R271). The loader's file I/O is out of scope (R5). -/

namespace Sys2Proof.Machine

/-- Why a load fails before execution starts (R273); I/O failure is out of scope (R5). -/
inductive LoadError where
  | addressOverflow
deriving DecidableEq, Repr

/-- The memory write as the loader sees it, with an address wider than 16 bits (R65). -/
def Memory.writeChecked (m : Memory) (a : Nat) (v : Word) : Except LoadError Memory :=
  if a < 65536 then .ok (m.write a v) else .error .addressOverflow

/-- The big-endian 16-bit words of an image; a trailing single byte is dropped (R67, R272). -/
def imageWords : List Byte → List Word
  | hi :: lo :: rest => (hi ++ lo) :: imageWords rest
  | [_] => []
  | [] => []

/-- Words stored at consecutive addresses from `a` on, not wrapped (R272, R273). -/
def loadWords : Nat → List Word → Memory → Except LoadError Memory
  | _, [], m => .ok m
  | a, w :: ws, m =>
    match m.writeChecked a w with
    | .ok m' => loadWords (a + 1) ws m'
    | .error e => .error e

/-- An image loaded: its first word is the load address, the words after it the content; an image with no
origin word loads nothing (R272, R274). -/
def loadImage (bytes : List Byte) (m : Memory) : Except LoadError Memory :=
  match imageWords bytes with
  | [] => .ok m
  | origin :: ws => loadWords origin.toNat ws m

/-- A launch (R270): memory all zero, the image loaded, the register file initialised from the parameters;
PC is START_PC whatever load address the image declares (R271). A load error starts no run (R273). -/
def State.launch (p : Params) (image : List Byte) (input : Input) : Except LoadError State :=
  match loadImage image [] with
  | .ok m => .ok ((State.resetWith p input).setMem m)
  | .error e => .error e

end Sys2Proof.Machine
end

