-- ==== Sys2Proof/Safety.lean ====
section
/-! DEFINITION. The terms the claims are stated in: which instructions may change what (R32, R36, R38),
what "unchanged" means for each kind of state, and the invariant of the machine. -/

namespace Sys2Proof

/-- The opcode of an instruction (R96). -/
def Instr.opcode : Instr → Opcode
  | .br _ _ _ _ => .br
  | .addReg _ _ _ _ | .addImm _ _ _ => .add
  | .ld _ _ => .ld
  | .st _ _ => .st
  | .jsr _ | .jsrr _ _ _ => .jsr
  | .andReg _ _ _ _ | .andImm _ _ _ => .and
  | .ldr _ _ _ => .ldr
  | .str _ _ _ => .str
  | .not _ _ _ => .not
  | .ldi _ _ => .ldi
  | .sti _ _ => .sti
  | .jmp _ _ _ => .jmp
  | .lea _ _ => .lea
  | .trapGetc _ | .trapOut _ | .trapPuts _ | .trapIn _ | .trapPutsp _ | .trapHalt _
  | .trapUnknown _ _ => .trap
  | .rti _ => .rti
  | .res _ => .res

/-- The register an instruction updates COND from, the one it writes (R38): `none` for an instruction that
never changes COND. LEA is one only when LEA_SETS_CC. -/
def Instr.condFrom (p : Params) : Instr → Option Reg
  | .addReg dr _ _ _ | .addImm dr _ _ | .andReg dr _ _ _ | .andImm dr _ _ | .not dr _ _ => some dr
  | .ld dr _ | .ldi dr _ | .ldr dr _ _ => some dr
  | .lea dr _ => if p.leaSetsCc then some dr else none
  | .trapGetc _ | .trapIn _ => some .r0
  | .br _ _ _ _ | .jmp _ _ _ | .jsr _ | .jsrr _ _ _ => none
  | .st _ _ | .sti _ _ | .str _ _ _ => none
  | .trapOut _ | .trapPuts _ | .trapPutsp _ | .trapHalt _ => none
  | .trapUnknown _ _ | .rti _ | .res _ => none

/-- The link register of a TRAP with a recognised code: R7 if TRAP_LINKS_R7 (R212). -/
def Params.linked (p : Params) : List Reg := if p.trapLinksR7 then [.r7] else []

/-- The general registers an instruction may write: the last column of R32's table. -/
def Instr.writes (p : Params) : Instr → List Reg
  | .addReg dr _ _ _ | .addImm dr _ _ | .andReg dr _ _ _ | .andImm dr _ _ | .not dr _ _ => [dr]
  | .ld dr _ | .ldi dr _ | .ldr dr _ _ | .lea dr _ => [dr]
  | .jsr _ | .jsrr _ _ _ => [.r7]
  | .trapGetc _ | .trapIn _ => .r0 :: p.linked
  | .trapOut _ | .trapPuts _ | .trapPutsp _ | .trapHalt _ => p.linked
  | .br _ _ _ _ | .jmp _ _ _ => []
  | .st _ _ | .sti _ _ | .str _ _ _ => []
  | .trapUnknown _ _ | .rti _ | .res _ => []

/-- Whether an instruction writes PC beyond the fetch: BR, JMP, JSR and JSRR (R36). -/
def Instr.isTransfer : Instr → Bool
  | .br _ _ _ _ | .jmp _ _ _ | .jsr _ | .jsrr _ _ _ => true
  | .addReg _ _ _ _ | .addImm _ _ _ | .andReg _ _ _ _ | .andImm _ _ _ | .not _ _ _ => false
  | .ld _ _ | .ldi _ _ | .ldr _ _ _ | .lea _ _ | .st _ _ | .sti _ _ | .str _ _ _ => false
  | .trapGetc _ | .trapOut _ | .trapPuts _ | .trapIn _ | .trapPutsp _ | .trapHalt _ => false
  | .trapUnknown _ _ | .rti _ | .res _ => false

end Sys2Proof

namespace Sys2Proof.Machine

/-- The cell an instruction stores to, from the state it executes in (R170, R171, R173). -/
def storeAddress (s : State) : Instr → Option Word
  | .st _ off => some (s.pcRelative off)
  | .sti _ off => some (s.indirect off).1
  | .str _ base off => some (s.baseOffset base off)
  | .br _ _ _ _ | .jmp _ _ _ | .jsr _ | .jsrr _ _ _ => none
  | .addReg _ _ _ _ | .addImm _ _ _ | .andReg _ _ _ _ | .andImm _ _ _ | .not _ _ _ => none
  | .ld _ _ | .ldi _ _ | .ldr _ _ _ | .lea _ _ => none
  | .trapGetc _ | .trapOut _ | .trapPuts _ | .trapIn _ | .trapPutsp _ | .trapHalt _ => none
  | .trapUnknown _ _ | .rti _ | .res _ => none

/-- The invariant of the machine: memory is in its canonical form, and the two keyboard cells are
different cells (R13). -/
def State.Inv (s : State) : Prop := s.mem.wf = true ∧ s.params.wf = true

/-- Every general register but those listed holds what it held. -/
def SameRegsBut (rs : List Reg) (s t : State) : Prop := ∀ q, q ∉ rs → t.reg q = s.reg q

/-- Every memory cell but those listed holds what it held. -/
def SameCellsBut (as : List Word) (s t : State) : Prop := ∀ a, a ∉ as → t.cell a = s.cell a

/-- The run status and the parameters of the launch are what they were. -/
def SameRun (s t : State) : Prop := t.status = s.status ∧ t.params = s.params

/-- Neither stream of the host was touched. -/
def SameStreams (s t : State) : Prop := t.input = s.input ∧ t.output = s.output

/-- What an operate instruction or LEA leaves unchanged: all but its destination, COND aside. -/
def SameButReg (dr : Reg) (s t : State) : Prop :=
  SameRegsBut [dr] s t ∧ t.pc = s.pc ∧ SameCellsBut [] s t ∧ SameStreams s t ∧ SameRun s t

/-- What a load into `dr` leaves, `r` being the value and the state of its memory reads: the register and
COND from the value, memory and input as the reads left them, all else as before (R160, R161, R163). -/
def LoadLeaves (s : State) (dr : Reg) (r : Word × State) (t : State) : Prop :=
  t.reg dr = r.1 ∧ t.cond = condOf r.1 ∧ SameRegsBut [dr] s t ∧ t.pc = s.pc ∧
    (∀ a, t.cell a = r.2.cell a) ∧ t.input = r.2.input ∧ t.output = s.output ∧ SameRun s t

/-- What a store of `v` to `ea` leaves, `r` being the state after the reads before it: that cell, and all
else as it was (R170, R171, R173, R174). -/
def StoreLeaves (s : State) (ea v : Word) (r : State) (t : State) : Prop :=
  t.cell ea = v ∧ (∀ a, a ≠ ea → t.cell a = r.cell a) ∧ SameRegsBut [] s t ∧ t.cond = s.cond ∧
    t.pc = s.pc ∧ t.input = r.input ∧ t.output = s.output ∧ SameRun s t

/-- The general registers a TRAP with a recognised code leaves, those listed aside: R7 holds the advanced PC
when TRAP_LINKS_R7, every other register is as before (R212). -/
def LinkedRegsBut (rs : List Reg) (s t : State) : Prop :=
  ∀ q, q ∉ rs → t.reg q = if s.params.trapLinksR7 = true ∧ q = .r7 then s.pc else s.reg q

end Sys2Proof.Machine
end

