-- ==== Sys2Proof/Certificates/Slice0/Obligations.lean ====
section
/-! DEFINITION. The statements for the provers, by the files of the spec they come from. A statement about
`exec` speaks of the state after the fetch, where PC is the instruction's address plus 1 (R25). -/

open Sys2Proof Sys2Proof.Machine

/-! ## 30_encoding.md -/

/-- R91, R95, R96, R98: no bit of an instruction is lost by its word. -/
def Obligations.DecodeOfEncodeIsIdentity : Prop :=
  ∀ i : Instr, i.wellFormed = true → decode (encode i) = i

/-- R90, R94, R98: every word is one instruction, which stands for that word only. -/
def Obligations.EncodeOfDecodeIsIdentity : Prop :=
  ∀ w : Word, (decode w).wellFormed = true ∧ encode (decode w) = w

/-- R100, which the spec derives from R95 to R98: a word is decoded by the first row of the opcode table that
covers it; no word lies in two rows of legal instructions; the three fatal rows are the last. -/
def Obligations.DecodeFollowsOpcodeTable : Prop :=
  (∀ w : Word, opcodeTable.find? (fun r => r.covers w) = some (decode w).row) ∧
  (∀ w : Word, ∀ r ∈ opcodeTable.take 22, ∀ r' ∈ opcodeTable.take 22,
    r.covers w = true → r'.covers w = true → r = r') ∧
  (opcodeTable.drop 22).map TableRow.mnemonic =
    ["TRAP__unrecognised_code", "RTI__reserved", "RES__reserved"]

/-- R96: the opcode of a decoded word is the one the map gives its top nibble. The map is the spec's own choice
of the classic one (D3, log entry 7). -/
def Obligations.OpcodeMapOfTopNibble : Prop :=
  ∀ w : Word, (decode w).opcode = opcode w ∧
    some (opcode w) =
      ([.br, .add, .ld, .st, .jsr, .and, .ldr, .str, .rti, .not, .ldi, .sti, .jmp, .res, .lea, .trap] :
        List Opcode)[w.toNat / 4096]?

/-- R101, R102, R140 to R231: words that the spec writes out with their assembly. -/
def Obligations.SpecWordsDecode : Prop :=
  decode 0x1021 = .addImm .r0 .r0 1 ∧ decode 0x1283 = .addReg .r1 .r2 0 .r3 ∧
  decode 0x5642 = .andReg .r3 .r1 0 .r2 ∧ decode 0x5020 = .andImm .r0 .r0 0 ∧
  decode 0x997F = .not .r4 .r5 0x3F ∧ decode 0x2205 = .ld .r1 5 ∧ decode 0xA602 = .ldi .r3 2 ∧
  decode 0x68BD = .ldr .r4 .r2 (-3) ∧ decode 0xEB00 = .lea .r5 (-256) ∧ decode 0x3204 = .st .r1 4 ∧
  decode 0xB401 = .sti .r2 1 ∧ decode 0x7720 = .str .r3 .r4 (-32) ∧
  decode 0x0805 = .br true false false 5 ∧ decode 0x03FD = .br false false true (-3) ∧
  decode 0xC1C0 = .jmp 0 .r7 0 ∧ decode 0x4803 = .jsr 3 ∧ decode 0x40C0 = .jsrr 0 .r3 0 ∧
  decode 0xF020 = .trapGetc 0 ∧ decode 0xF121 = .trapOut 1 ∧ decode 0xF025 = .trapHalt 0 ∧
  decode 0xF026 = .trapUnknown 0 0x26 ∧ decode 0x8FFF = .rti 0xFFF ∧ decode 0xD123 = .res 0x123

/-- R94, R99: a word with any ignored bits executes as the word with the classic value in those bits, by the
spec's decision D9 (log entry 12).
A fault records the word itself (R240), so GETC and IN are compared where they do not fault. -/
def Obligations.IgnoredBitsChangeNothing : Prop :=
  ∀ (w : Word) (s : State),
    ((opcode w = .add ∨ opcode w = .and) → w.getLsbD 5 = false →
      exec (decode w) s = exec (decode (w &&& 0xFFE7)) s) ∧
    (opcode w = .not → exec (decode w) s = exec (decode (w ||| 0x003F)) s) ∧
    (opcode w = .jmp → exec (decode w) s = exec (decode (w &&& 0xF1C0)) s) ∧
    (opcode w = .jsr → w.getLsbD 11 = false → exec (decode w) s = exec (decode (w &&& 0xF9C0)) s) ∧
    (opcode w = .trap → w.extractLsb' 0 8 ∈ recognisedTrapCodes →
      (s.input.upcoming = [] → s.input.ended = false) →
      exec (decode w) s = exec (decode (w &&& 0xF0FF)) s)

/-! ## 00_scope.md, 10_state.md -/

/-- R21: sign extension from n bits. -/
def Obligations.SignExtensionLaws : Prop :=
  ∀ (v : Word) (n : Nat), 1 ≤ n → n < 16 →
    (∀ k, k < n → (sext v n).getLsbD k = v.getLsbD k) ∧
    (∀ k, n ≤ k → k < 16 → (sext v n).getLsbD k = v.getLsbD (n - 1)) ∧
    sext (sext v n) n = sext v n ∧
    (v.getLsbD (n - 1) = false → (sext v n).toNat = v.toNat % 2 ^ n)

/-- R37: COND from a value, `update_flags` and `write_and_update`; and R128's law that the flags then already
reflect the value just written. -/
def Obligations.CondFollowsWrittenValue : Prop :=
  (∀ v : Word, (v = 0 → condOf v = .zro) ∧ (v.getLsbD 15 = true → condOf v = .neg) ∧
    (v.getLsbD 15 = false → v ≠ 0 → condOf v = .pos)) ∧
  (∀ (s : State) (r : Reg), s.updateFlags r = s.setCond (condOf (s.reg r))) ∧
  (∀ (s : State) (r : Reg) (v : Word), s.writeAndUpdate r v = (s.setReg r v).updateFlags r ∧
    (s.writeAndUpdate r v).reg r = v ∧ (s.writeAndUpdate r v).cond = condOf v ∧
    (s.writeAndUpdate r v).updateFlags r = s.writeAndUpdate r v)

/-- R31: eight registers, numbered 0 to 7 by the 3-bit register fields; none hard-wired, none an alias of
another or of PC, COND or memory. -/
def Obligations.RegistersAreIndependent : Prop :=
  (∀ b : BitVec 3, (Reg.ofBits b).bits = b ∧
    some (Reg.ofBits b) = ([.r0, .r1, .r2, .r3, .r4, .r5, .r6, .r7] : List Reg)[b.toNat]?) ∧
  ∀ (s : State) (r : Reg) (v : Word), (s.setReg r v).reg r = v ∧ SameRegsBut [r] s (s.setReg r v) ∧
    (s.setReg r v).pc = s.pc ∧ (s.setReg r v).cond = s.cond ∧ SameCellsBut [] s (s.setReg r v)

/-! ## 20_memory.md -/

/-- R60: a memory read polls at KBSR_ADDR only and returns the cell; elsewhere it changes nothing. -/
def Obligations.MemReadPollsOnlyAtStatusAddress : Prop :=
  ∀ (s : State) (a : Word),
    (a = s.params.kbsrAddr → s.memRead a = (s.keyboardPoll.cell a, s.keyboardPoll)) ∧
    (a ≠ s.params.kbsrAddr → s.memRead a = (s.cell a, s))

/-- R61, R62: a read of KBSR_ADDR that finds a byte ready takes it; one that does not clears the status and
leaves the data cell. Zero extension and the host's draw are the spec's decisions D17 and D36; the states of
the host's input are those of log entry 5. -/
def Obligations.StatusReadPollsKeyboard : Prop :=
  ∀ (s : State), s.params.kbdrAddr ≠ s.params.kbsrAddr →
    let v := (s.memRead s.params.kbsrAddr).1
    let t := (s.memRead s.params.kbsrAddr).2
    (∀ b ks, s.input.upcoming = ⟨b, 0⟩ :: ks →
      v = 0x8000 ∧ t.cell s.params.kbsrAddr = 0x8000 ∧
        t.cell s.params.kbdrAddr = BitVec.ofNat 16 b.toNat ∧ t.input = { s.input with keys := ks }) ∧
    (∀ b n ks, s.input.upcoming = ⟨b, n + 1⟩ :: ks →
      v = 0 ∧ t.cell s.params.kbsrAddr = 0 ∧ t.cell s.params.kbdrAddr = s.cell s.params.kbdrAddr ∧
        t.input = { s.input with keys := ⟨b, n⟩ :: ks }) ∧
    (s.input.upcoming = [] →
      v = 0 ∧ t.cell s.params.kbsrAddr = 0 ∧ t.cell s.params.kbdrAddr = s.cell s.params.kbdrAddr ∧
        t.input = s.input) ∧
    SameCellsBut [s.params.kbsrAddr, s.params.kbdrAddr] s t ∧ SameRegsBut [] s t ∧ t.pc = s.pc ∧
    t.cond = s.cond ∧ t.output = s.output ∧ SameRun s t

/-- R64: a memory write is a plain store at every address, the keyboard cells included, and no read of
KBSR_ADDR returns a value written there. -/
def Obligations.MemWriteIsPlainStore : Prop :=
  ∀ (s : State) (a v : Word),
    (s.memWrite a v).cell a = v ∧ SameCellsBut [a] s (s.memWrite a v) ∧
    SameRegsBut [] s (s.memWrite a v) ∧ (s.memWrite a v).pc = s.pc ∧ (s.memWrite a v).cond = s.cond ∧
    SameStreams s (s.memWrite a v) ∧ SameRun s (s.memWrite a v) ∧
    ((s.memWrite s.params.kbsrAddr v).memRead s.params.kbsrAddr).1 = (s.memRead s.params.kbsrAddr).1

/-- R75, which the spec derives from R72: a store is seen by the next fetch of that cell. -/
def Obligations.StoresAreSeenByFetch : Prop :=
  ∀ (s t : State) (sr base : Reg) (off : BitVec 9) (off6 : BitVec 6) (i : Instr) (ea : Word),
    i ∈ [Instr.st sr off, Instr.sti sr off, Instr.str sr base off6] → storeAddress s i = some ea →
    ea ≠ s.params.kbsrAddr → exec i s = .next t → (t.setPc ea).fetch.1 = s.reg sr

/-! ## 40_engine_cycle.md -/

/-- R121, R35: the fetch reads the cell at PC through `MemRead` and advances PC by one, modulo 2^16; that it
wraps and that it polls are the spec's decisions D11 and D12 (log entries 13, 14). -/
def Obligations.FetchReadsAndAdvances : Prop :=
  ∀ s : State, s.fetch.1 = (s.memRead s.pc).1 ∧ s.fetch.2.pc.toNat = (s.pc.toNat + 1) % 65536 ∧
    s.fetch.2 = { (s.memRead s.pc).2 with pc := s.fetch.2.pc }

/-- R120, R122: while the status is Running, one step fetches, decodes and executes; a word whose top nibble
is 0x8 or 0xD faults after the fetch; an instruction whose word stands at PC is the one that runs; and in
any other status no step is taken. -/
def Obligations.StepRunsDecodedInstruction : Prop :=
  ∀ s : State, (s.status ≠ .running → step s = .next s) ∧ (s.status = .running →
    (step s = exec (decode (s.memRead s.pc).1) ((s.memRead s.pc).2.setPc (s.pc + 1))) ∧
    (opcode (s.memRead s.pc).1 = .rti ∨ opcode (s.memRead s.pc).1 = .res →
      step s = .next (((s.memRead s.pc).2.setPc (s.pc + 1)).setStatus
        (.faulted .reservedOpcode (s.memRead s.pc).1))) ∧
    (∀ i : Instr, i.wellFormed = true → s.pc ≠ s.params.kbsrAddr → s.cell s.pc = encode i →
      step s = exec i (s.setPc (s.pc + 1))))

/-- R48: the run status starts Running, and Halted and Faulted are final. -/
def Obligations.HaltedAndFaultedAreFinal : Prop :=
  State.reset.status = .running ∧ ∀ s : State, s.status ≠ .running → step s = .next s

/-- R126, R127: a run that has ended stays as it ended, for any number of steps. -/
def Obligations.EndedRunsStay : Prop :=
  ∀ (k : Nat) (s t : State), s.status = .running → step s = .next t → t.status ≠ .running →
    Host.Core.run Sys2Proof.core (k + 1) s = .next t

/-- From every state that meets the invariant, a step answers a next state that meets it, with the parameters
of the launch unchanged. The two keyboard addresses differ by R13. The rest is the model's own form: a step
always answers a next state because a step with no outcome answers the same state (log entry 6, where R125
and R226 give none) and a fault or halt is a next state with its status (log entry 8); the parameters are in
State and no step changes them (log entry 1); memory has a canonical form (log entry 10). -/
def Obligations.EveryStepKeepsTheInvariant : Prop :=
  ∀ s : State, s.Inv → ∃ t, step s = .next t ∧ t.Inv ∧ t.params = s.params

/-- R44, R13: the invariant holds at reset. -/
def Obligations.ResetMeetsTheInvariant : Prop := State.reset.Inv

/-- R126, R241: only HALT, a reserved opcode, an unrecognised trap code and the end of input end a run, each
in its own status, which records the word fetched. The end of input as a fault is the spec's decision D16. -/
def Obligations.OnlyHaltAndFaultsEndARun : Prop :=
  ∀ s t : State, s.status = .running → step s = .next t → t.status ≠ .running →
    let w := (s.memRead s.pc).1
    (w &&& 0xF0FF = 0xF025 ∧ t.status = .halted) ∨
    ((opcode w = .rti ∨ opcode w = .res) ∧ t.status = .faulted .reservedOpcode w) ∨
    (opcode w = .trap ∧ w.extractLsb' 0 8 ∉ recognisedTrapCodes ∧
      t.status = .faulted .unknownTrapCode w) ∨
    ((w &&& 0xF0FF = 0xF020 ∨ w &&& 0xF0FF = 0xF023) ∧ s.input.upcoming = [] ∧ s.input.ended = true ∧
      t.status = .faulted .inputExhausted w)

/-! ## Rules about all instructions -/

/-- R50: the output stream is append-only, with no buffer by the spec's decision D20 (log entry 15). -/
def Obligations.OutputIsAppendOnly : Prop :=
  ∀ s t : State, step s = .next t → ∃ bs, t.output = s.output ++ bs

/-- R49: input bytes are taken from the front, each once and in order; no step ends or reopens the input (the
input as data is the model's choice, log entry 5). -/
def Obligations.InputIsTakenInOrder : Prop :=
  ∀ s t : State, step s = .next t →
    t.input.ended = s.input.ended ∧ ∃ k, ∀ n, t.input.nth n = s.input.nth (n + k)

/-- R38: COND changes only by the listed instructions, each from the value it writes to its register. The
list is the spec's choice of the classic one (D5, log entry 7).
GETC and IN with no byte left write no register and leave COND (R216, log entry 6). -/
def Obligations.CondChangesOnlyWithAWrite : Prop :=
  ∀ (i : Instr) (s t : State), exec i s = .next t →
    (i.condFrom s.params = none → t.cond = s.cond) ∧
    (∀ r, i.condFrom s.params = some r →
      t.cond = condOf (t.reg r) ∨ (i.opcode = .trap ∧ s.input.upcoming = [] ∧ t.cond = s.cond))

/-- R32, which the spec derives from the instruction rules, and R33: an instruction writes no general register
but those of the table's last column. -/
def Obligations.RegistersKeepTheirValues : Prop :=
  ∀ (i : Instr) (s t : State), exec i s = .next t → SameRegsBut (i.writes s.params) s t

/-- R36, which the spec derives: beyond the fetch, PC is written by BR, JMP, JSR and JSRR only. A TRAP that has
no outcome yet stands as not taken (log entry 6). -/
def Obligations.PcIsWrittenByTransfersOnly : Prop :=
  ∀ (i : Instr) (s t : State), exec i s = .next t → i.isTransfer = false →
    t.pc = s.pc ∨ (i.opcode = .trap ∧ t = s.stepNotTaken)

/-- R61, R64, R69: beyond a store's cell and the two keyboard cells, no instruction changes memory; and one
that neither loads, stores indirectly nor prints a string changes no cell but its store's. -/
def Obligations.MemoryKeepsItsContent : Prop :=
  ∀ (i : Instr) (s t : State), exec i s = .next t →
    (∀ a, storeAddress s i ≠ some a → a ≠ s.params.kbsrAddr → a ≠ s.params.kbdrAddr →
      t.cell a = s.cell a) ∧
    ((match i with
      | .ld _ _ | .ldi _ _ | .ldr _ _ _ | .sti _ _ | .trapPuts _ | .trapPutsp _ => False
      | _ => True) → ∀ a, storeAddress s i ≠ some a → t.cell a = s.cell a)

/-- R242, R127: faults are precise, at the word fetched, with PC past it (the spec's decisions D21 and D26).
That no register is written holds for the R7 link before InputExhausted too, which R210 places before the
routine: R242 is read as settling it (log entry 9). -/
def Obligations.FaultsArePrecise : Prop :=
  ∀ (s t : State) (r : Fault) (w : Word), s.status = .running → step s = .next t →
    t.status = .faulted r w →
    w = (s.memRead s.pc).1 ∧ t.pc = s.pc + 1 ∧ t.cond = s.cond ∧
    (∀ a, t.cell a = (s.memRead s.pc).2.cell a) ∧ t.input = (s.memRead s.pc).2.input ∧
    SameRegsBut [] s t ∧
    t.output = s.output ++ (if w &&& 0xF0FF = 0xF023 then s.params.inPrompt else []) ∧
    t.params = s.params

/-! ## 41_operate.md -/

/-- R140, R141, R142: ADD, both forms: the word, the sum modulo 2^16 (also the two's complement one), COND
from it, and nothing else. -/
def Obligations.AddWritesTheWrappedSum : Prop :=
  (∀ (dr sr1 sr2 : Reg) (ign : BitVec 2),
    decode (0x1#4 ++ dr.bits ++ sr1.bits ++ 0#1 ++ ign ++ sr2.bits) = .addReg dr sr1 ign sr2 ∧
    ∀ s : State, ∃ t, exec (.addReg dr sr1 ign sr2) s = .next t ∧
      (t.reg dr).toNat = ((s.reg sr1).toNat + (s.reg sr2).toNat) % 65536 ∧
      t.reg dr = BitVec.ofInt 16 ((s.reg sr1).toInt + (s.reg sr2).toInt) ∧
      t.cond = condOf (t.reg dr) ∧ SameButReg dr s t) ∧
  (∀ (dr sr1 : Reg) (imm : BitVec 5),
    decode (0x1#4 ++ dr.bits ++ sr1.bits ++ 1#1 ++ imm) = .addImm dr sr1 imm ∧
    ∀ s : State, ∃ t, exec (.addImm dr sr1 imm) s = .next t ∧
      t.reg dr = BitVec.ofInt 16 ((s.reg sr1).toInt + imm.toInt) ∧
      t.cond = condOf (t.reg dr) ∧ SameButReg dr s t)

/-- R143, R144: AND, both forms, bit by bit. -/
def Obligations.AndWritesTheBitwiseAnd : Prop :=
  (∀ (dr sr1 sr2 : Reg) (ign : BitVec 2),
    decode (0x5#4 ++ dr.bits ++ sr1.bits ++ 0#1 ++ ign ++ sr2.bits) = .andReg dr sr1 ign sr2 ∧
    ∀ s : State, ∃ t, exec (.andReg dr sr1 ign sr2) s = .next t ∧
      (∀ k, (t.reg dr).getLsbD k = ((s.reg sr1).getLsbD k && (s.reg sr2).getLsbD k)) ∧
      t.cond = condOf (t.reg dr) ∧ SameButReg dr s t) ∧
  (∀ (dr sr1 : Reg) (imm : BitVec 5),
    decode (0x5#4 ++ dr.bits ++ sr1.bits ++ 1#1 ++ imm) = .andImm dr sr1 imm ∧
    ∀ s : State, ∃ t, exec (.andImm dr sr1 imm) s = .next t ∧
      (∀ k, k < 16 → (t.reg dr).getLsbD k =
        ((s.reg sr1).getLsbD k && (if k < 5 then imm.getLsbD k else imm.getLsbD 4))) ∧
      t.cond = condOf (t.reg dr) ∧ SameButReg dr s t)

/-- R146: NOT inverts all sixteen bits. -/
def Obligations.NotInvertsEveryBit : Prop :=
  ∀ (dr sr : Reg) (ign : BitVec 6),
    decode (0x9#4 ++ dr.bits ++ sr.bits ++ ign) = .not dr sr ign ∧
    ∀ s : State, ∃ t, exec (.not dr sr ign) s = .next t ∧
      (∀ k, k < 16 → (t.reg dr).getLsbD k = !(s.reg sr).getLsbD k) ∧
      t.cond = condOf (t.reg dr) ∧ SameButReg dr s t

/-! ## 42_data_movement.md -/

/-- R160: LD loads the cell at PC plus offset through `MemRead`. -/
def Obligations.LdLoadsPcRelative : Prop :=
  ∀ (dr : Reg) (off : BitVec 9), decode (0x2#4 ++ dr.bits ++ off) = .ld dr off ∧
    ∀ s : State, ∃ t, exec (.ld dr off) s = .next t ∧
      LoadLeaves s dr (s.memRead (s.pc + off.signExtend 16)) t ∧
      (s.pc + off.signExtend 16 ≠ s.params.kbsrAddr →
        t.reg dr = s.cell (s.pc + off.signExtend 16) ∧ SameCellsBut [] s t ∧ SameStreams s t)

/-- R161: LDI reads the pointer cell, then the cell it points to, each through `MemRead`. -/
def Obligations.LdiLoadsThroughThePointer : Prop :=
  ∀ (dr : Reg) (off : BitVec 9), decode (0xA#4 ++ dr.bits ++ off) = .ldi dr off ∧
    ∀ s : State, ∃ t, exec (.ldi dr off) s = .next t ∧
      (let p := s.memRead (s.pc + off.signExtend 16)
       LoadLeaves s dr (p.2.memRead p.1) t) ∧
      (s.pc + off.signExtend 16 ≠ s.params.kbsrAddr →
        s.cell (s.pc + off.signExtend 16) ≠ s.params.kbsrAddr →
        t.reg dr = s.cell (s.cell (s.pc + off.signExtend 16)) ∧ SameCellsBut [] s t ∧ SameStreams s t)

/-- R163: LDR loads the cell at base plus offset through `MemRead`; the base is read first. -/
def Obligations.LdrLoadsBasePlusOffset : Prop :=
  ∀ (dr base : Reg) (off : BitVec 6), decode (0x6#4 ++ dr.bits ++ base.bits ++ off) = .ldr dr base off ∧
    ∀ s : State, ∃ t, exec (.ldr dr base off) s = .next t ∧
      LoadLeaves s dr (s.memRead (s.reg base + off.signExtend 16)) t ∧
      (s.reg base + off.signExtend 16 ≠ s.params.kbsrAddr →
        t.reg dr = s.cell (s.reg base + off.signExtend 16) ∧ SameCellsBut [] s t ∧ SameStreams s t)

/-- R165: LEA writes the address, reads no memory, and sets COND only when LEA_SETS_CC. -/
def Obligations.LeaWritesTheAddress : Prop :=
  ∀ (dr : Reg) (off : BitVec 9), decode (0xE#4 ++ dr.bits ++ off) = .lea dr off ∧
    ∀ s : State, ∃ t, exec (.lea dr off) s = .next t ∧ t.reg dr = s.pc + off.signExtend 16 ∧
      t.cond = (if s.params.leaSetsCc = true then condOf (t.reg dr) else s.cond) ∧ SameButReg dr s t

/-- R170: ST stores the register at PC plus offset, whatever cell that is. -/
def Obligations.StStoresPcRelative : Prop :=
  ∀ (sr : Reg) (off : BitVec 9), decode (0x3#4 ++ sr.bits ++ off) = .st sr off ∧
    ∀ s : State, ∃ t, exec (.st sr off) s = .next t ∧
      StoreLeaves s (s.pc + off.signExtend 16) (s.reg sr) s t

/-- R171: STI reads the pointer cell through `MemRead`, then stores the register there. -/
def Obligations.StiStoresThroughThePointer : Prop :=
  ∀ (sr : Reg) (off : BitVec 9), decode (0xB#4 ++ sr.bits ++ off) = .sti sr off ∧
    ∀ s : State, ∃ t, exec (.sti sr off) s = .next t ∧
      (let p := s.memRead (s.pc + off.signExtend 16)
       StoreLeaves s p.1 (s.reg sr) p.2 t)

/-- R173: STR stores the register at base plus offset. -/
def Obligations.StrStoresBasePlusOffset : Prop :=
  ∀ (sr base : Reg) (off : BitVec 6), decode (0x7#4 ++ sr.bits ++ base.bits ++ off) = .str sr base off ∧
    ∀ s : State, ∃ t, exec (.str sr base off) s = .next t ∧
      StoreLeaves s (s.reg base + off.signExtend 16) (s.reg sr) s t

/-! ## 43_control.md -/

/-- R190: BR goes to PC plus offset when COND is one the mask names, and changes nothing but PC. -/
def Obligations.BrBranchesOnTheMask : Prop :=
  ∀ (n z p : Bool) (off : BitVec 9),
    decode (0x0#4 ++ (BitVec.ofBool n ++ BitVec.ofBool z ++ BitVec.ofBool p) ++ off) = .br n z p off ∧
    ∀ s : State,
      (((n = true ∧ s.cond = .neg) ∨ (z = true ∧ s.cond = .zro) ∨ (p = true ∧ s.cond = .pos)) →
        exec (.br n z p off) s = .next (s.setPc (s.pc + off.signExtend 16))) ∧
      (¬ ((n = true ∧ s.cond = .neg) ∨ (z = true ∧ s.cond = .zro) ∨ (p = true ∧ s.cond = .pos)) →
        exec (.br n z p off) s = .next s)

/-- R192, R193: JMP goes to the base register's value and changes nothing but PC; RET is JMP R7. -/
def Obligations.JmpGoesToTheBase : Prop :=
  (∀ (ignHi : BitVec 3) (base : Reg) (ignLo : BitVec 6),
    decode (0xC#4 ++ ignHi ++ base.bits ++ ignLo) = .jmp ignHi base ignLo ∧
    ∀ s : State, exec (.jmp ignHi base ignLo) s = .next (s.setPc (s.reg base))) ∧
  ∀ s : State, exec (decode 0xC1C0) s = .next (s.setPc (s.reg .r7))

/-- R194: JSR saves the advanced PC in R7, then goes to PC plus offset; COND is untouched. -/
def Obligations.JsrLinksAndJumps : Prop :=
  ∀ off : BitVec 11, decode (0x4#4 ++ 1#1 ++ off) = .jsr off ∧
    ∀ s : State, ∃ t, exec (.jsr off) s = .next t ∧ t.reg .r7 = s.pc ∧
      t.pc = s.pc + off.signExtend 16 ∧ SameRegsBut [.r7] s t ∧ t.cond = s.cond ∧
      SameCellsBut [] s t ∧ SameStreams s t ∧ SameRun s t

/-- R195: JSRR saves the advanced PC in R7 and goes to the base; the two orders differ for R7 only. -/
def Obligations.JsrrLinksAndJumps : Prop :=
  ∀ (ignHi : BitVec 2) (base : Reg) (ignLo : BitVec 6),
    decode (0x4#4 ++ 0#1 ++ ignHi ++ base.bits ++ ignLo) = .jsrr ignHi base ignLo ∧
    ∀ s : State, ∃ t, exec (.jsrr ignHi base ignLo) s = .next t ∧ t.reg .r7 = s.pc ∧
      t.pc = (if base = .r7 ∧ s.params.jsrrLinkFirst = true then s.pc else s.reg base) ∧
      SameRegsBut [.r7] s t ∧ t.cond = s.cond ∧ SameCellsBut [] s t ∧ SameStreams s t ∧ SameRun s t

/-! ## 44_trap.md -/

/-- R215, R212, R217: GETC takes the next byte, whatever the host's readiness, to R0, zero-extended by the
spec's decision D17, and sets COND. Its end of input is in InputExhaustedFaults. -/
def Obligations.GetcTakesTheNextByte : Prop :=
  ∀ ign : BitVec 4, decode (0xF#4 ++ ign ++ 0x20#8) = .trapGetc ign ∧
    ∀ (s : State) (k : Keystroke) (ks : List Keystroke), s.input.upcoming = k :: ks →
      ∃ t, exec (.trapGetc ign) s = .next t ∧ t.reg .r0 = BitVec.ofNat 16 k.byte.toNat ∧
        t.cond = (if k.byte = 0 then .zro else .pos) ∧ LinkedRegsBut [.r0] s t ∧ t.pc = s.pc ∧
        SameCellsBut [] s t ∧ t.input = { s.input with keys := ks } ∧ t.output = s.output ∧ SameRun s t

/-- R219: OUT writes the low byte of R0. -/
def Obligations.OutWritesTheLowByte : Prop :=
  ∀ ign : BitVec 4, decode (0xF#4 ++ ign ++ 0x21#8) = .trapOut ign ∧
    ∀ s : State, ∃ t, exec (.trapOut ign) s = .next t ∧
      t.output = s.output ++ [BitVec.ofNat 8 ((s.reg .r0).toNat % 256)] ∧ LinkedRegsBut [] s t ∧
      t.cond = s.cond ∧ t.pc = s.pc ∧ SameCellsBut [] s t ∧ t.input = s.input ∧ SameRun s t

/-- R221, R212: PUTS writes the low byte of each cell up to the zero cell, for a string with no cell at
KBSR_ADDR; a string that passes KBSR_ADDR polls on the way (StringOutputIsTheWholeLoop). The low byte and
the wrap are the spec's decisions D17 and D33. -/
def Obligations.PutsWritesOneBytePerCell : Prop :=
  ∀ ign : BitVec 4, decode (0xF#4 ++ ign ++ 0x22#8) = .trapPuts ign ∧
    ∀ (s : State) (k : Nat), (∀ j, j ≤ k → s.reg .r0 + BitVec.ofNat 16 j ≠ s.params.kbsrAddr) →
      (∀ j, j < k → s.cell (s.reg .r0 + BitVec.ofNat 16 j) ≠ 0) →
      s.cell (s.reg .r0 + BitVec.ofNat 16 k) = 0 →
      ∃ t, exec (.trapPuts ign) s = .next t ∧
        t.output = s.output ++ (List.range k).map
          (fun j => BitVec.ofNat 8 ((s.cell (s.reg .r0 + BitVec.ofNat 16 j)).toNat % 256)) ∧
        LinkedRegsBut [] s t ∧ t.cond = s.cond ∧ t.pc = s.pc ∧ SameCellsBut [] s t ∧
        t.input = s.input ∧ SameRun s t

/-- R223, R212: PUTSP writes the low byte of each cell, then its high byte if that is not zero, for a string
with no cell at KBSR_ADDR. -/
def Obligations.PutspWritesTwoBytesPerCell : Prop :=
  ∀ ign : BitVec 4, decode (0xF#4 ++ ign ++ 0x24#8) = .trapPutsp ign ∧
    ∀ (s : State) (k : Nat), (∀ j, j ≤ k → s.reg .r0 + BitVec.ofNat 16 j ≠ s.params.kbsrAddr) →
      (∀ j, j < k → s.cell (s.reg .r0 + BitVec.ofNat 16 j) ≠ 0) →
      s.cell (s.reg .r0 + BitVec.ofNat 16 k) = 0 →
      ∃ t, exec (.trapPutsp ign) s = .next t ∧
        t.output = s.output ++ (List.range k).flatMap (fun j =>
          let c := (s.cell (s.reg .r0 + BitVec.ofNat 16 j)).toNat
          BitVec.ofNat 8 (c % 256) :: (if c / 256 = 0 then [] else [BitVec.ofNat 8 (c / 256)])) ∧
        LinkedRegsBut [] s t ∧ t.cond = s.cond ∧ t.pc = s.pc ∧ SameCellsBut [] s t ∧
        t.input = s.input ∧ SameRun s t

/-- R221, R223, R226: PUTS and PUTSP are the loop of their pseudocode, polls included: where the loop ends
they end, and where it never ends the instruction does not complete (log entry 6). -/
def Obligations.StringOutputIsTheWholeLoop : Prop :=
  ∀ (ign : BitVec 4) (s : State),
    (∀ n t, scanString putsBytes n (s.reg .r0) s.trapLink = some t →
      exec (.trapPuts ign) s = .next t) ∧
    ((∀ n, scanString putsBytes n (s.reg .r0) s.trapLink = none) →
      exec (.trapPuts ign) s = .next s.stepNotTaken) ∧
    (∀ n t, scanString putspBytes n (s.reg .r0) s.trapLink = some t →
      exec (.trapPutsp ign) s = .next t) ∧
    ((∀ n, scanString putspBytes n (s.reg .r0) s.trapLink = none) →
      exec (.trapPutsp ign) s = .next s.stepNotTaken)

/-- R226, R252: for a host that does not deliver bytes without end (log entry 5), PUTS and PUTSP complete
from every state, whatever memory holds: a pass over memory meets KBSR, which reads 0 once no byte is
left. -/
def Obligations.StringOutputEndsWithFiniteInput : Prop :=
  ∀ (ign : BitVec 4) (s : State), s.input.endless = none →
    (∃ t, exec (.trapPuts ign) s = .next t ∧ t.pc = s.pc ∧ t.cond = s.cond ∧ t.status = s.status ∧
      LinkedRegsBut [] s t) ∧
    (∃ t, exec (.trapPutsp ign) s = .next t ∧ t.pc = s.pc ∧ t.cond = s.cond ∧ t.status = s.status ∧
      LinkedRegsBut [] s t)

/-- R222, R212, R217: IN writes its prompt, takes the next byte, echoes it, stores it in R0 zero-extended (the
spec's decision D17), sets COND. Its end of input is in InputExhaustedFaults. -/
def Obligations.InPromptsEchoesAndStores : Prop :=
  ∀ ign : BitVec 4, decode (0xF#4 ++ ign ++ 0x23#8) = .trapIn ign ∧
    ∀ (s : State) (k : Keystroke) (ks : List Keystroke), s.input.upcoming = k :: ks →
      ∃ t, exec (.trapIn ign) s = .next t ∧ t.reg .r0 = BitVec.ofNat 16 k.byte.toNat ∧
        t.cond = (if k.byte = 0 then .zro else .pos) ∧ LinkedRegsBut [.r0] s t ∧ t.pc = s.pc ∧
        SameCellsBut [] s t ∧ t.input = { s.input with keys := ks } ∧
        t.output = s.output ++ s.params.inPrompt ++ [k.byte] ∧ SameRun s t

/-- R216: at the end of input GETC and IN fault with R0 and COND unchanged, the prompt staying written (the
spec's decision D16).
No register is written, the R7 link included (D26, log entry 9). -/
def Obligations.InputExhaustedFaults : Prop :=
  ∀ (ign : BitVec 4) (s : State), s.input.upcoming = [] → s.input.ended = true →
    ∃ t u, exec (.trapGetc ign) s = .next t ∧ exec (.trapIn ign) s = .next u ∧
      t.status = .faulted .inputExhausted (0xF#4 ++ ign ++ 0x20#8) ∧
      u.status = .faulted .inputExhausted (0xF#4 ++ ign ++ 0x23#8) ∧
      t.output = s.output ∧ u.output = s.output ++ s.params.inPrompt ∧
      ∀ v ∈ [t, u], v.reg .r0 = s.reg .r0 ∧ v.cond = s.cond ∧ v.pc = s.pc ∧ SameCellsBut [] s v ∧
        v.input = s.input ∧ v.params = s.params ∧ SameRegsBut [] s v

/-- R125, R226: a step that waits in `InByte()`, or whose PUTS or PUTSP never ends, has no outcome: the run
stays at the state before it (the model's choice, log entry 6). -/
def Obligations.StepsWithoutOutcomeStay : Prop :=
  ∀ (s : State) (ign : BitVec 4), s.status = .running → s.params.kbdrAddr ≠ s.params.kbsrAddr →
    (((decode (s.memRead s.pc).1 = .trapGetc ign ∨ decode (s.memRead s.pc).1 = .trapIn ign) ∧
        s.input.upcoming = [] ∧ s.input.ended = false) ∨
      (decode (s.memRead s.pc).1 = .trapPuts ign ∧
        ∀ n, scanString putsBytes n (s.reg .r0) s.fetch.2.trapLink = none) ∨
      (decode (s.memRead s.pc).1 = .trapPutsp ign ∧
        ∀ n, scanString putspBytes n (s.reg .r0) s.fetch.2.trapLink = none)) →
    step s = .next s

/-- R225: HALT writes the halt notice and sets the status Halted. -/
def Obligations.HaltWritesTheNoticeAndHalts : Prop :=
  ∀ ign : BitVec 4, decode (0xF#4 ++ ign ++ 0x25#8) = .trapHalt ign ∧
    ∀ s : State, ∃ t, exec (.trapHalt ign) s = .next t ∧ t.status = .halted ∧
      t.output = s.output ++ s.params.haltNotice ∧ LinkedRegsBut [] s t ∧ t.cond = s.cond ∧
      t.pc = s.pc ∧ SameCellsBut [] s t ∧ t.input = s.input ∧ t.params = s.params

/-- R213: a TRAP with any other code faults and changes nothing else, R7 included (the spec's decision D21). -/
def Obligations.UnknownTrapCodeFaults : Prop :=
  ∀ (ign : BitVec 4) (code : BitVec 8), code ∉ [0x20#8, 0x21#8, 0x22#8, 0x23#8, 0x24#8, 0x25#8] →
    decode (0xF#4 ++ ign ++ code) = .trapUnknown ign code ∧
    ∀ s : State, exec (.trapUnknown ign code) s =
      .next (s.setStatus (.faulted .unknownTrapCode (0xF#4 ++ ign ++ code)))

/-- R230, R231: RTI and RES fault, whatever their other bits, and change nothing else. -/
def Obligations.ReservedOpcodesFault : Prop :=
  ∀ ign : BitVec 12, decode (0x8#4 ++ ign) = .rti ign ∧ decode (0xD#4 ++ ign) = .res ign ∧
    ∀ s : State,
      exec (.rti ign) s = .next (s.setStatus (.faulted .reservedOpcode (0x8#4 ++ ign))) ∧
      exec (.res ign) s = .next (s.setStatus (.faulted .reservedOpcode (0xD#4 ++ ign)))

/-! ## 60_exceptions.md, 70_reset_and_hazards.md -/

/-- R252: the host can change the input stream only, and a byte it delivers comes after those to come. The
two operations are the model's (log entry 5). -/
def Obligations.HostChangesInputOnly : Prop :=
  ∀ (s : State) (k : Keystroke),
    s.supply k = { s with input := (s.supply k).input } ∧
    s.endInput = { s with input := { s.input with ended := true } } ∧
    (s.input.ended = true → s.supply k = s) ∧
    (s.input.ended = false → (s.supply k).input.keys = s.input.keys ++ [k] ∧
      (s.supply k).input.endless = s.input.endless ∧ (s.supply k).input.ended = false)

/-- R52, R270, R40: the state at the first fetch, for every value of the parameters and every host; at the
defaults PC is 0x3000, the keyboard cells are 0xFE00 and 0xFE02, and the registers are 0 (log entries 2, 3). -/
def Obligations.ResetLeavesTheStartState : Prop :=
  (∀ (p : Params) (i : Input), let s := State.resetWith p i
    (∀ r, s.reg r = p.initGpr.get r) ∧ s.pc = p.startPc ∧ s.cond = .zro ∧ (∀ a, s.cell a = 0) ∧
    s.status = .running ∧ s.input = i ∧ s.output = [] ∧ s.params = p) ∧
  State.reset = State.resetWith Params.default Input.silent ∧ State.reset.pc = 0x3000 ∧
  State.reset.params.kbsrAddr = 0xFE00 ∧ State.reset.params.kbdrAddr = 0xFE02 ∧
  (∀ r, State.reset.reg r = 0)

/-- R272, R274, R271: loading an image and reading it back; cells outside it read 0; a trailing single byte is
dropped; the start state is otherwise that of reset, PC at START_PC. The short image and the start address are
the spec's decisions D25 and D15. -/
def Obligations.LoadedImageReadsBack : Prop :=
  (∀ (p : Params) (i : Input) (origin : Word) (ws : List Word) (tail : List Byte), tail.length ≤ 1 →
    origin.toNat + ws.length ≤ 65536 →
    ∃ s, State.launch p ((origin :: ws).flatMap (fun w =>
        [BitVec.ofNat 8 (w.toNat / 256), BitVec.ofNat 8 (w.toNat % 256)]) ++ tail) i = .ok s ∧
      (∀ (j : Nat) (h : j < ws.length), s.cell (BitVec.ofNat 16 (origin.toNat + j)) = ws[j]) ∧
      (∀ a : Word, a.toNat < origin.toNat ∨ origin.toNat + ws.length ≤ a.toNat → s.cell a = 0) ∧
      s = (State.resetWith p i).setMem s.mem ∧ s.mem.wf = true) ∧
  (∀ (p : Params) (i : Input) (bytes : List Byte), bytes.length < 2 →
    State.launch p bytes i = .ok (State.resetWith p i))

/-- R273: an image that runs past the last cell is a load error; its addresses are not wrapped (the spec's
decision D24). -/
def Obligations.LoadPastTheEndFails : Prop :=
  ∀ (p : Params) (i : Input) (origin : Word) (ws : List Word) (tail : List Byte), tail.length ≤ 1 →
    65536 < origin.toNat + ws.length →
    State.launch p ((origin :: ws).flatMap (fun w =>
      [BitVec.ofNat 8 (w.toNat / 256), BitVec.ofNat 8 (w.toNat % 256)]) ++ tail) i =
      .error .addressOverflow

/-- R19, R141: the source's first scenario, the image 0x3000, 0x1021 at the default start. -/
def Obligations.FirstScenarioAddsOne : Prop :=
  ∃ s t, State.launch Params.default [0x30, 0x00, 0x10, 0x21] Input.silent = .ok s ∧ step s = .next t ∧
    t.reg .r0 = 1 ∧ t.cond = .pos ∧ t.pc = 0x3001 ∧ t.status = .running

/-- R120, R121: `withFetchWord` places the word that the very next step runs, away from KBSR_ADDR; the
placing is the model's own device (log entry 11). -/
def Obligations.PlacedWordIsTheOneThatRuns : Prop :=
  ∀ (s : State) (w : Nat), s.pc ≠ s.params.kbsrAddr →
    decodeTableWord 16 w = some (decode (BitVec.ofNat 16 w)) ∧
    step (s.withFetchWord 16 w) =
      exec (decode (BitVec.ofNat 16 w)) ((s.withFetchWord 16 w).setPc (s.pc + 1)) ∧
    SameCellsBut [s.pc] s (s.withFetchWord 16 w) ∧ SameRegsBut [] s (s.withFetchWord 16 w) ∧
    SameStreams s (s.withFetchWord 16 w) ∧ (s.withFetchWord 16 w).pc = s.pc ∧
    (s.withFetchWord 16 w).cond = s.cond
end

