-- ==== Sys2Proof/Laws/Decode.lean ====
section
/-! SUPPORT. The bits of the instruction formats of R95, and the laws of the register and opcode fields. -/

namespace Sys2Proof

@[simp] theorem Reg.ofBits_bits (r : Reg) : Reg.ofBits r.bits = r := by cases r <;> rfl

@[simp] theorem Reg.bits_ofBits (b : BitVec 3) : (Reg.ofBits b).bits = b := by revert b; decide

/-- A field of a word, read bit by bit. -/
theorem extractLsb'_eq_of_getLsbD (w : Word) (lo n : Nat) (x : BitVec n)
    (h : ∀ k, k < n → w.getLsbD (lo + k) = x.getLsbD k) : w.extractLsb' lo n = x := by
  apply BitVec.eq_of_getLsbD_eq
  intro k hk
  rw [BitVec.getLsbD_extractLsb', h k hk]
  simp [hk]

/-- The bits of format PC9. -/
theorem getLsbD_encodePC9 (op : BitVec 4) (r : BitVec 3) (off : BitVec 9) (k : Nat) :
    (encodePC9 op r off).getLsbD k =
      if k < 9 then off.getLsbD k
      else if k - 9 < 3 then r.getLsbD (k - 9)
      else op.getLsbD (k - 9 - 3) := by
  simp only [encodePC9, BitVec.getLsbD_append]

/-- The bits of format OPR. -/
theorem getLsbD_encodeOPR (op : BitVec 4) (dr sr1 : Reg) (ign : BitVec 2) (sr2 : Reg) (k : Nat) :
    (encodeOPR op dr sr1 ign sr2).getLsbD k =
      if k < 3 then sr2.bits.getLsbD k
      else if k - 3 < 2 then ign.getLsbD (k - 3)
      else if k - 3 - 2 < 1 then (0#1).getLsbD (k - 3 - 2)
      else if k - 3 - 2 - 1 < 3 then sr1.bits.getLsbD (k - 3 - 2 - 1)
      else if k - 3 - 2 - 1 - 3 < 3 then dr.bits.getLsbD (k - 3 - 2 - 1 - 3)
      else op.getLsbD (k - 3 - 2 - 1 - 3 - 3) := by
  simp only [encodeOPR, BitVec.getLsbD_append]

/-- The bits of format OPI. -/
theorem getLsbD_encodeOPI (op : BitVec 4) (dr sr1 : Reg) (imm : BitVec 5) (k : Nat) :
    (encodeOPI op dr sr1 imm).getLsbD k =
      if k < 5 then imm.getLsbD k
      else if k - 5 < 1 then (1#1).getLsbD (k - 5)
      else if k - 5 - 1 < 3 then sr1.bits.getLsbD (k - 5 - 1)
      else if k - 5 - 1 - 3 < 3 then dr.bits.getLsbD (k - 5 - 1 - 3)
      else op.getLsbD (k - 5 - 1 - 3 - 3) := by
  simp only [encodeOPI, BitVec.getLsbD_append]

/-- The bits of formats BASE6, NOT and JMP. -/
theorem getLsbD_encodeBASE6 (op : BitVec 4) (hi base : BitVec 3) (lo : BitVec 6) (k : Nat) :
    (encodeBASE6 op hi base lo).getLsbD k =
      if k < 6 then lo.getLsbD k
      else if k - 6 < 3 then base.getLsbD (k - 6)
      else if k - 6 - 3 < 3 then hi.getLsbD (k - 6 - 3)
      else op.getLsbD (k - 6 - 3 - 3) := by
  simp only [encodeBASE6, BitVec.getLsbD_append]

/-- The bits of format TRAP. -/
theorem getLsbD_encodeTRAP (ign : BitVec 4) (code : BitVec 8) (k : Nat) :
    (encodeTRAP ign code).getLsbD k =
      if k < 8 then code.getLsbD k
      else if k - 8 < 4 then ign.getLsbD (k - 8)
      else (0xF#4).getLsbD (k - 8 - 4) := by
  simp only [encodeTRAP, BitVec.getLsbD_append]

end Sys2Proof
end

