-- ==== Sys2Proof/Laws/Input.lean ====
section
/-! SUPPORT. What the availability check and `InByte()` can do to the input stream. -/

namespace Sys2Proof.Machine

variable (i : Input)

/-- Everything the availability check can do: no byte left, a byte taken, or "not ready" answered. -/
theorem Input.poll_cases :
    (i.upcoming = [] ∧ i.poll = (none, i)) ∨
    (∃ b ks, i.upcoming = ⟨b, 0⟩ :: ks ∧ i.poll = (some b, { i with keys := ks })) ∨
    (∃ b n ks, i.upcoming = ⟨b, n + 1⟩ :: ks ∧ i.poll = (none, { i with keys := ⟨b, n⟩ :: ks })) := by
  unfold Input.poll
  split
  · exact .inl ⟨by assumption, rfl⟩
  · exact .inr (.inl ⟨_, _, by assumption, rfl⟩)
  · exact .inr (.inr ⟨_, _, _, by assumption, rfl⟩)

/-- Everything `InByte()` can find. -/
theorem Input.inByte_cases :
    (∃ k ks, i.upcoming = k :: ks ∧ i.inByte = .byte k.byte { i with keys := ks }) ∨
    (i.upcoming = [] ∧ i.ended = true ∧ i.inByte = .exhausted) ∨
    (i.upcoming = [] ∧ i.ended = false ∧ i.inByte = .waits) := by
  unfold Input.inByte
  cases h : i.upcoming with
  | nil => cases he : i.ended <;> simp
  | cons k ks => exact .inl ⟨k, ks, rfl, rfl⟩

@[simp] theorem Input.poll_endless : i.poll.2.endless = i.endless := by
  obtain ⟨-, h⟩ | ⟨b, ks, -, h⟩ | ⟨b, n, ks, -, h⟩ := i.poll_cases <;> rw [h]

@[simp] theorem Input.poll_ended : i.poll.2.ended = i.ended := by
  obtain ⟨-, h⟩ | ⟨b, ks, -, h⟩ | ⟨b, n, ks, -, h⟩ := i.poll_cases <;> rw [h]

theorem Input.upcoming_keys_cons (k : Keystroke) (ks : List Keystroke) :
    Input.upcoming { i with keys := k :: ks } = k :: ks := rfl

/-- With a byte at the front, the bytes after it are the bytes of what is left when it is taken. -/
theorem Input.nth_succ (k : Keystroke) (ks : List Keystroke) (h : i.upcoming = k :: ks) (n : Nat) :
    Input.nth (n + 1) i = Input.nth n { i with keys := ks } := by
  simp only [Input.nth, h]

/-- Answering "not ready" moves no byte. -/
theorem Input.nth_notReady (b : Byte) (d e : Nat) (ks : List Keystroke) (h : i.upcoming = ⟨b, d⟩ :: ks)
    (n : Nat) : Input.nth n { i with keys := ⟨b, e⟩ :: ks } = Input.nth n i := by
  cases n <;> simp [Input.nth, Input.upcoming_keys_cons, h]

end Sys2Proof.Machine
end

