-- ==== Sys2Proof/Laws/State.lean ====
section
/-! SUPPORT. One lemma per field per update of State, each true by rfl, and the register file's laws. -/

namespace Sys2Proof

@[simp] theorem RegFile.get_set_same (f : RegFile) (r : Reg) (v : Word) : (f.set r v).get r = v := by
  cases r <;> rfl

theorem RegFile.get_set_of_ne (f : RegFile) (r q : Reg) (v : Word) (h : q ≠ r) :
    (f.set r v).get q = f.get q := by
  cases r <;> cases q <;> first | rfl | exact absurd rfl h

/-- Reading any register after writing one. -/
theorem RegFile.get_set (f : RegFile) (r q : Reg) (v : Word) :
    (f.set r v).get q = if q = r then v else f.get q := by
  by_cases h : q = r
  · simp [h]
  · simp [h, RegFile.get_set_of_ne f r q v h]

end Sys2Proof

namespace Sys2Proof.Machine

variable (s : State)

/-! ### setReg -/

@[simp] theorem State.setReg_regs (r : Reg) (v : Word) :
    (s.setReg r v).regs = s.regs.set r v := rfl
@[simp] theorem State.setReg_pc (r : Reg) (v : Word) : (s.setReg r v).pc = s.pc := rfl
@[simp] theorem State.setReg_cond (r : Reg) (v : Word) : (s.setReg r v).cond = s.cond := rfl
@[simp] theorem State.setReg_mem (r : Reg) (v : Word) : (s.setReg r v).mem = s.mem := rfl
@[simp] theorem State.setReg_status (r : Reg) (v : Word) : (s.setReg r v).status = s.status := rfl
@[simp] theorem State.setReg_input (r : Reg) (v : Word) : (s.setReg r v).input = s.input := rfl
@[simp] theorem State.setReg_output (r : Reg) (v : Word) : (s.setReg r v).output = s.output := rfl
@[simp] theorem State.setReg_params (r : Reg) (v : Word) : (s.setReg r v).params = s.params := rfl

/-! ### setPc -/

@[simp] theorem State.setPc_regs (v : Word) : (s.setPc v).regs = s.regs := rfl
@[simp] theorem State.setPc_pc (v : Word) : (s.setPc v).pc = v := rfl
@[simp] theorem State.setPc_cond (v : Word) : (s.setPc v).cond = s.cond := rfl
@[simp] theorem State.setPc_mem (v : Word) : (s.setPc v).mem = s.mem := rfl
@[simp] theorem State.setPc_status (v : Word) : (s.setPc v).status = s.status := rfl
@[simp] theorem State.setPc_input (v : Word) : (s.setPc v).input = s.input := rfl
@[simp] theorem State.setPc_output (v : Word) : (s.setPc v).output = s.output := rfl
@[simp] theorem State.setPc_params (v : Word) : (s.setPc v).params = s.params := rfl

/-! ### setCond -/

@[simp] theorem State.setCond_regs (c : Cond) : (s.setCond c).regs = s.regs := rfl
@[simp] theorem State.setCond_pc (c : Cond) : (s.setCond c).pc = s.pc := rfl
@[simp] theorem State.setCond_cond (c : Cond) : (s.setCond c).cond = c := rfl
@[simp] theorem State.setCond_mem (c : Cond) : (s.setCond c).mem = s.mem := rfl
@[simp] theorem State.setCond_status (c : Cond) : (s.setCond c).status = s.status := rfl
@[simp] theorem State.setCond_input (c : Cond) : (s.setCond c).input = s.input := rfl
@[simp] theorem State.setCond_output (c : Cond) : (s.setCond c).output = s.output := rfl
@[simp] theorem State.setCond_params (c : Cond) : (s.setCond c).params = s.params := rfl

/-! ### setMem -/

@[simp] theorem State.setMem_regs (m : Memory) : (s.setMem m).regs = s.regs := rfl
@[simp] theorem State.setMem_pc (m : Memory) : (s.setMem m).pc = s.pc := rfl
@[simp] theorem State.setMem_cond (m : Memory) : (s.setMem m).cond = s.cond := rfl
@[simp] theorem State.setMem_mem (m : Memory) : (s.setMem m).mem = m := rfl
@[simp] theorem State.setMem_status (m : Memory) : (s.setMem m).status = s.status := rfl
@[simp] theorem State.setMem_input (m : Memory) : (s.setMem m).input = s.input := rfl
@[simp] theorem State.setMem_output (m : Memory) : (s.setMem m).output = s.output := rfl
@[simp] theorem State.setMem_params (m : Memory) : (s.setMem m).params = s.params := rfl

/-! ### setInput -/

@[simp] theorem State.setInput_regs (i : Input) : (s.setInput i).regs = s.regs := rfl
@[simp] theorem State.setInput_pc (i : Input) : (s.setInput i).pc = s.pc := rfl
@[simp] theorem State.setInput_cond (i : Input) : (s.setInput i).cond = s.cond := rfl
@[simp] theorem State.setInput_mem (i : Input) : (s.setInput i).mem = s.mem := rfl
@[simp] theorem State.setInput_status (i : Input) : (s.setInput i).status = s.status := rfl
@[simp] theorem State.setInput_input (i : Input) : (s.setInput i).input = i := rfl
@[simp] theorem State.setInput_output (i : Input) : (s.setInput i).output = s.output := rfl
@[simp] theorem State.setInput_params (i : Input) : (s.setInput i).params = s.params := rfl

/-! ### setStatus -/

@[simp] theorem State.setStatus_regs (x : RunStatus) : (s.setStatus x).regs = s.regs := rfl
@[simp] theorem State.setStatus_pc (x : RunStatus) : (s.setStatus x).pc = s.pc := rfl
@[simp] theorem State.setStatus_cond (x : RunStatus) : (s.setStatus x).cond = s.cond := rfl
@[simp] theorem State.setStatus_mem (x : RunStatus) : (s.setStatus x).mem = s.mem := rfl
@[simp] theorem State.setStatus_status (x : RunStatus) : (s.setStatus x).status = x := rfl
@[simp] theorem State.setStatus_input (x : RunStatus) : (s.setStatus x).input = s.input := rfl
@[simp] theorem State.setStatus_output (x : RunStatus) : (s.setStatus x).output = s.output := rfl
@[simp] theorem State.setStatus_params (x : RunStatus) : (s.setStatus x).params = s.params := rfl

/-! ### out -/

@[simp] theorem State.out_regs (bs : List Byte) : (s.out bs).regs = s.regs := rfl
@[simp] theorem State.out_pc (bs : List Byte) : (s.out bs).pc = s.pc := rfl
@[simp] theorem State.out_cond (bs : List Byte) : (s.out bs).cond = s.cond := rfl
@[simp] theorem State.out_mem (bs : List Byte) : (s.out bs).mem = s.mem := rfl
@[simp] theorem State.out_status (bs : List Byte) : (s.out bs).status = s.status := rfl
@[simp] theorem State.out_input (bs : List Byte) : (s.out bs).input = s.input := rfl
@[simp] theorem State.out_output (bs : List Byte) : (s.out bs).output = s.output ++ bs := rfl
@[simp] theorem State.out_params (bs : List Byte) : (s.out bs).params = s.params := rfl

/-! ### setCell -/

@[simp] theorem State.setCell_regs (a v : Word) : (s.setCell a v).regs = s.regs := rfl
@[simp] theorem State.setCell_pc (a v : Word) : (s.setCell a v).pc = s.pc := rfl
@[simp] theorem State.setCell_cond (a v : Word) : (s.setCell a v).cond = s.cond := rfl
@[simp] theorem State.setCell_mem (a v : Word) : (s.setCell a v).mem = s.mem.write a.toNat v := rfl
@[simp] theorem State.setCell_status (a v : Word) : (s.setCell a v).status = s.status := rfl
@[simp] theorem State.setCell_input (a v : Word) : (s.setCell a v).input = s.input := rfl
@[simp] theorem State.setCell_output (a v : Word) : (s.setCell a v).output = s.output := rfl
@[simp] theorem State.setCell_params (a v : Word) : (s.setCell a v).params = s.params := rfl

/-! ### memWrite -/

@[simp] theorem State.memWrite_regs (a v : Word) : (s.memWrite a v).regs = s.regs := rfl
@[simp] theorem State.memWrite_pc (a v : Word) : (s.memWrite a v).pc = s.pc := rfl
@[simp] theorem State.memWrite_cond (a v : Word) : (s.memWrite a v).cond = s.cond := rfl
@[simp] theorem State.memWrite_mem (a v : Word) :
    (s.memWrite a v).mem = s.mem.write a.toNat v := rfl
@[simp] theorem State.memWrite_status (a v : Word) : (s.memWrite a v).status = s.status := rfl
@[simp] theorem State.memWrite_input (a v : Word) : (s.memWrite a v).input = s.input := rfl
@[simp] theorem State.memWrite_output (a v : Word) : (s.memWrite a v).output = s.output := rfl
@[simp] theorem State.memWrite_params (a v : Word) : (s.memWrite a v).params = s.params := rfl

/-! ### updateFlags -/

@[simp] theorem State.updateFlags_regs (r : Reg) : (s.updateFlags r).regs = s.regs := rfl
@[simp] theorem State.updateFlags_pc (r : Reg) : (s.updateFlags r).pc = s.pc := rfl
@[simp] theorem State.updateFlags_cond (r : Reg) : (s.updateFlags r).cond = condOf (s.reg r) := rfl
@[simp] theorem State.updateFlags_mem (r : Reg) : (s.updateFlags r).mem = s.mem := rfl
@[simp] theorem State.updateFlags_status (r : Reg) : (s.updateFlags r).status = s.status := rfl
@[simp] theorem State.updateFlags_input (r : Reg) : (s.updateFlags r).input = s.input := rfl
@[simp] theorem State.updateFlags_output (r : Reg) : (s.updateFlags r).output = s.output := rfl
@[simp] theorem State.updateFlags_params (r : Reg) : (s.updateFlags r).params = s.params := rfl

/-! ### writeAndUpdate -/

@[simp] theorem State.writeAndUpdate_regs (r : Reg) (v : Word) :
    (s.writeAndUpdate r v).regs = s.regs.set r v := rfl
@[simp] theorem State.writeAndUpdate_pc (r : Reg) (v : Word) :
    (s.writeAndUpdate r v).pc = s.pc := rfl
@[simp] theorem State.writeAndUpdate_cond (r : Reg) (v : Word) :
    (s.writeAndUpdate r v).cond = condOf ((s.setReg r v).reg r) := rfl
@[simp] theorem State.writeAndUpdate_mem (r : Reg) (v : Word) :
    (s.writeAndUpdate r v).mem = s.mem := rfl
@[simp] theorem State.writeAndUpdate_status (r : Reg) (v : Word) :
    (s.writeAndUpdate r v).status = s.status := rfl
@[simp] theorem State.writeAndUpdate_input (r : Reg) (v : Word) :
    (s.writeAndUpdate r v).input = s.input := rfl
@[simp] theorem State.writeAndUpdate_output (r : Reg) (v : Word) :
    (s.writeAndUpdate r v).output = s.output := rfl
@[simp] theorem State.writeAndUpdate_params (r : Reg) (v : Word) :
    (s.writeAndUpdate r v).params = s.params := rfl

/-! ### raiseFault -/

@[simp] theorem State.raiseFault_regs (f : Fault) (w : Word) :
    (s.raiseFault f w).regs = s.regs := rfl
@[simp] theorem State.raiseFault_pc (f : Fault) (w : Word) : (s.raiseFault f w).pc = s.pc := rfl
@[simp] theorem State.raiseFault_cond (f : Fault) (w : Word) :
    (s.raiseFault f w).cond = s.cond := rfl
@[simp] theorem State.raiseFault_mem (f : Fault) (w : Word) : (s.raiseFault f w).mem = s.mem := rfl
@[simp] theorem State.raiseFault_status (f : Fault) (w : Word) :
    (s.raiseFault f w).status = .faulted f w := rfl
@[simp] theorem State.raiseFault_input (f : Fault) (w : Word) :
    (s.raiseFault f w).input = s.input := rfl
@[simp] theorem State.raiseFault_output (f : Fault) (w : Word) :
    (s.raiseFault f w).output = s.output := rfl
@[simp] theorem State.raiseFault_params (f : Fault) (w : Word) :
    (s.raiseFault f w).params = s.params := rfl

/-! ### stepNotTaken -/

@[simp] theorem State.stepNotTaken_regs : (s.stepNotTaken).regs = s.regs := rfl
@[simp] theorem State.stepNotTaken_pc : (s.stepNotTaken).pc = s.pc - 1 := rfl
@[simp] theorem State.stepNotTaken_cond : (s.stepNotTaken).cond = s.cond := rfl
@[simp] theorem State.stepNotTaken_mem : (s.stepNotTaken).mem = s.mem := rfl
@[simp] theorem State.stepNotTaken_status : (s.stepNotTaken).status = s.status := rfl
@[simp] theorem State.stepNotTaken_input : (s.stepNotTaken).input = s.input := rfl
@[simp] theorem State.stepNotTaken_output : (s.stepNotTaken).output = s.output := rfl
@[simp] theorem State.stepNotTaken_params : (s.stepNotTaken).params = s.params := rfl

/-! ### Register reads -/

/-- Reading any register after one is written. -/
theorem State.reg_setReg (r q : Reg) (v : Word) :
    (s.setReg r v).reg q = if q = r then v else s.reg q := RegFile.get_set s.regs r q v

@[simp] theorem State.reg_setReg_same (r : Reg) (v : Word) : (s.setReg r v).reg r = v :=
  RegFile.get_set_same s.regs r v

@[simp] theorem State.reg_setPc (v : Word) (q : Reg) : (s.setPc v).reg q = s.reg q := rfl
@[simp] theorem State.reg_setCond (c : Cond) (q : Reg) : (s.setCond c).reg q = s.reg q := rfl
@[simp] theorem State.reg_setMem (m : Memory) (q : Reg) : (s.setMem m).reg q = s.reg q := rfl
@[simp] theorem State.reg_setInput (i : Input) (q : Reg) : (s.setInput i).reg q = s.reg q := rfl
@[simp] theorem State.reg_setStatus (x : RunStatus) (q : Reg) : (s.setStatus x).reg q = s.reg q := rfl
@[simp] theorem State.reg_out (bs : List Byte) (q : Reg) : (s.out bs).reg q = s.reg q := rfl
@[simp] theorem State.reg_setCell (a v : Word) (q : Reg) : (s.setCell a v).reg q = s.reg q := rfl
@[simp] theorem State.reg_memWrite (a v : Word) (q : Reg) : (s.memWrite a v).reg q = s.reg q := rfl
@[simp] theorem State.reg_updateFlags (r q : Reg) : (s.updateFlags r).reg q = s.reg q := rfl
@[simp] theorem State.reg_raiseFault (f : Fault) (w : Word) (q : Reg) :
    (s.raiseFault f w).reg q = s.reg q := rfl
@[simp] theorem State.reg_stepNotTaken (q : Reg) : s.stepNotTaken.reg q = s.reg q := rfl

/-- Reading any register after `write_and_update`. -/
theorem State.reg_writeAndUpdate (r q : Reg) (v : Word) :
    (s.writeAndUpdate r v).reg q = if q = r then v else s.reg q := RegFile.get_set s.regs r q v

@[simp] theorem State.reg_writeAndUpdate_same (r : Reg) (v : Word) : (s.writeAndUpdate r v).reg r = v :=
  RegFile.get_set_same s.regs r v

/-- `write_and_update` leaves COND as the written value gives it (R37). -/
theorem State.cond_writeAndUpdate (r : Reg) (v : Word) : (s.writeAndUpdate r v).cond = condOf v := by
  simp

/-! ### Cell reads -/

@[simp] theorem State.cell_setReg (r : Reg) (v a : Word) : (s.setReg r v).cell a = s.cell a := rfl
@[simp] theorem State.cell_setPc (v a : Word) : (s.setPc v).cell a = s.cell a := rfl
@[simp] theorem State.cell_setCond (c : Cond) (a : Word) : (s.setCond c).cell a = s.cell a := rfl
@[simp] theorem State.cell_setInput (i : Input) (a : Word) : (s.setInput i).cell a = s.cell a := rfl
@[simp] theorem State.cell_setStatus (x : RunStatus) (a : Word) : (s.setStatus x).cell a = s.cell a := rfl
@[simp] theorem State.cell_out (bs : List Byte) (a : Word) : (s.out bs).cell a = s.cell a := rfl
@[simp] theorem State.cell_updateFlags (r : Reg) (a : Word) : (s.updateFlags r).cell a = s.cell a := rfl
@[simp] theorem State.cell_writeAndUpdate (r : Reg) (v a : Word) :
    (s.writeAndUpdate r v).cell a = s.cell a := rfl
@[simp] theorem State.cell_raiseFault (f : Fault) (w a : Word) : (s.raiseFault f w).cell a = s.cell a := rfl
@[simp] theorem State.cell_stepNotTaken (a : Word) : s.stepNotTaken.cell a = s.cell a := rfl

end Sys2Proof.Machine
end

