-- ==== Sys2Proof/Laws/Memory.lean ====
section
/-! SUPPORT. The laws of memory: read after write, and that every operation keeps the canonical form. -/

namespace Sys2Proof.Machine

/-! ## Read after write, for every list of cells -/

theorem Memory.read_erase (m : Memory) (a b : Nat) :
    (m.erase a).read b = if b = a then Memory.unlisted else m.read b := by
  induction m with
  | nil => simp [Memory.erase, Memory.read]
  | cons c m ih =>
    obtain ⟨k, w⟩ := c
    by_cases hk : k = a
    · subst hk
      by_cases hb : k = b
      · subst hb; simpa [Memory.erase] using ih
      · simp [Memory.erase, Memory.read, hb, ih, Ne.symm hb]
    · by_cases hb : k = b
      · subst hb; simp [Memory.erase, Memory.read, hk]
      · simp [Memory.erase, Memory.read, hk, hb, ih]

theorem Memory.read_insert_of_ne (m : Memory) (a b : Nat) (v : Word) (h : b ≠ a) :
    (m.insert a v).read b = m.read b := by
  induction m with
  | nil => simp [Memory.insert, Memory.read, Ne.symm h]
  | cons c m ih =>
    obtain ⟨k, w⟩ := c
    by_cases hk : a < k
    · simp [Memory.insert, Memory.read, hk, Ne.symm h]
    · simp [Memory.insert, Memory.read, hk, ih]

/-- An entry put into a memory that lists the cell nowhere is the one a read finds. -/
theorem Memory.read_insert_erase_same (m : Memory) (a : Nat) (v : Word) :
    ((m.erase a).insert a v).read a = v := by
  induction m with
  | nil => simp [Memory.erase, Memory.insert, Memory.read]
  | cons c m ih =>
    obtain ⟨k, w⟩ := c
    by_cases hk : k = a
    · simpa [Memory.erase, hk] using ih
    · by_cases hl : a < k
      · simp [Memory.erase, hk, Memory.insert, hl, Memory.read]
      · simp [Memory.erase, hk, Memory.insert, hl, Memory.read, ih]

/-- Reading any cell after one is written, on every memory, canonical or not. -/
theorem Memory.read_write (m : Memory) (a b : Nat) (v : Word) :
    (m.write a v).read b = if b = a then v else m.read b := by
  unfold Memory.write
  by_cases hv : v = Memory.unlisted
  · by_cases hb : b = a <;> simp [hv, Memory.read_erase, hb]
  · by_cases hb : b = a
    · subst hb; simp only [if_neg hv, if_true, Memory.read_insert_erase_same]
    · simp only [if_neg hv, Memory.read_insert_of_ne _ _ _ _ hb, Memory.read_erase, if_neg hb]

/-! ## The canonical form -/

theorem Memory.wfFrom_cons (lo a : Nat) (v : Word) (m : Memory) :
    Memory.wfFrom lo ((a, v) :: m) = true ↔
      lo ≤ a ∧ a < 65536 ∧ v ≠ Memory.unlisted ∧ Memory.wfFrom (a + 1) m = true := by
  simp [Memory.wfFrom, and_assoc]

theorem Memory.wfFrom_mono {lo lo' : Nat} (h : lo' ≤ lo) (m : Memory) (hm : m.wfFrom lo = true) :
    m.wfFrom lo' = true := by
  cases m with
  | nil => rfl
  | cons c m =>
    obtain ⟨k, w⟩ := c
    rw [Memory.wfFrom_cons] at hm ⊢
    exact ⟨by omega, hm.2⟩

theorem Memory.wfFrom_erase {lo : Nat} (m : Memory) (a : Nat) (hm : m.wfFrom lo = true) :
    (m.erase a).wfFrom lo = true := by
  induction m generalizing lo with
  | nil => rfl
  | cons c m ih =>
    obtain ⟨k, w⟩ := c
    rw [Memory.wfFrom_cons] at hm
    obtain ⟨h1, h2, h3, h4⟩ := hm
    by_cases hk : k = a
    · simpa [Memory.erase, hk] using ih (Memory.wfFrom_mono (by omega) m h4)
    · simp only [Memory.erase, if_neg hk, Memory.wfFrom_cons]
      exact ⟨h1, h2, h3, ih h4⟩

theorem Memory.wfFrom_insert_erase {lo : Nat} (m : Memory) (a : Nat) (v : Word) (hlo : lo ≤ a)
    (ha : a < 65536) (hv : v ≠ Memory.unlisted) (hm : m.wfFrom lo = true) :
    ((m.erase a).insert a v).wfFrom lo = true := by
  induction m generalizing lo with
  | nil => simp only [Memory.erase, Memory.insert, Memory.wfFrom_cons]; exact ⟨hlo, ha, hv, rfl⟩
  | cons c m ih =>
    obtain ⟨k, w⟩ := c
    rw [Memory.wfFrom_cons] at hm
    obtain ⟨h1, h2, h3, h4⟩ := hm
    by_cases hk : k = a
    · simpa [Memory.erase, hk] using ih hlo (Memory.wfFrom_mono (by omega) m h4)
    · by_cases hl : a < k
      · simp only [Memory.erase, if_neg hk, Memory.insert, if_pos hl, Memory.wfFrom_cons]
        exact ⟨hlo, ha, hv, by omega, h2, h3, Memory.wfFrom_erase m a h4⟩
      · simp only [Memory.erase, if_neg hk, Memory.insert, if_neg hl, Memory.wfFrom_cons]
        exact ⟨h1, h2, h3, ih (by omega) h4⟩

/-- A write keeps the canonical form. -/
theorem Memory.wf_write (m : Memory) (a : Nat) (v : Word) (ha : a < 65536) (hm : m.wf = true) :
    (m.write a v).wf = true := by
  unfold Memory.write Memory.wf
  by_cases hv : v = Memory.unlisted
  · rw [if_pos hv]; exact Memory.wfFrom_erase m a hm
  · rw [if_neg hv]; exact Memory.wfFrom_insert_erase m a v (Nat.zero_le a) ha hv hm

theorem Memory.read_of_wfFrom {lo : Nat} (m : Memory) (a : Nat) (h : a < lo) (hm : m.wfFrom lo = true) :
    m.read a = Memory.unlisted := by
  induction m generalizing lo with
  | nil => rfl
  | cons c m ih =>
    obtain ⟨k, w⟩ := c
    rw [Memory.wfFrom_cons] at hm
    have hk : k ≠ a := by omega
    simpa [Memory.read, hk] using ih (by omega) hm.2.2.2

/-- The canonical form is canonical: two memories of that form with the same content are the same data. -/
theorem Memory.eq_of_read_eq {lo : Nat} (m n : Memory) (hm : m.wfFrom lo = true) (hn : n.wfFrom lo = true)
    (h : ∀ a, m.read a = n.read a) : m = n := by
  induction m generalizing lo n with
  | nil =>
    cases n with
    | nil => rfl
    | cons d n =>
      obtain ⟨j, x⟩ := d
      rw [Memory.wfFrom_cons] at hn
      have hj := h j
      simp only [Memory.read, if_true] at hj
      exact absurd hj.symm hn.2.2.1
  | cons c m ih =>
    obtain ⟨k, w⟩ := c
    rw [Memory.wfFrom_cons] at hm
    cases n with
    | nil =>
      have hk := h k
      simp only [Memory.read, if_true] at hk
      exact absurd hk hm.2.2.1
    | cons d n =>
      obtain ⟨j, x⟩ := d
      rw [Memory.wfFrom_cons] at hn
      have hkj : k = j := by
        rcases Nat.lt_trichotomy k j with hl | he | hl
        · have := h k
          rw [Memory.read_of_wfFrom (lo := j) ((j, x) :: n) k hl
            ((Memory.wfFrom_cons j j x n).mpr ⟨le_rfl, hn.2⟩)] at this
          simp only [Memory.read, if_true] at this
          exact absurd this hm.2.2.1
        · exact he
        · have := h j
          rw [Memory.read_of_wfFrom (lo := k) ((k, w) :: m) j hl
            ((Memory.wfFrom_cons k k w m).mpr ⟨le_rfl, hm.2⟩)] at this
          simp only [Memory.read, if_true] at this
          exact absurd this.symm hn.2.2.1
      subst hkj
      have hwx : w = x := by
        have := h k
        simpa [Memory.read] using this
      subst hwx
      have hrest : m = n := by
        apply ih n hm.2.2.2 hn.2.2.2
        intro a
        by_cases ha : k = a
        · subst ha
          rw [Memory.read_of_wfFrom m k (Nat.lt_succ_self k) hm.2.2.2,
            Memory.read_of_wfFrom n k (Nat.lt_succ_self k) hn.2.2.2]
        · simpa [Memory.read, ha] using h a
      rw [hrest]

/-! ## The same laws on State -/

/-- Reading any cell after one is written (R64, R72). -/
theorem State.cell_setCell (s : State) (a b v : Word) :
    (s.setCell a v).cell b = if b = a then v else s.cell b := by
  simp only [State.cell, State.setCell_mem, Memory.read_write, BitVec.toNat_inj]

@[simp] theorem State.cell_setCell_same (s : State) (a v : Word) : (s.setCell a v).cell a = v := by
  simp [State.cell_setCell]

/-- `MemWrite` read back (R64). -/
theorem State.cell_memWrite (s : State) (a b v : Word) :
    (s.memWrite a v).cell b = if b = a then v else s.cell b := State.cell_setCell s a b v

/-- A cell write keeps the canonical form. -/
theorem State.wf_setCell (s : State) (a v : Word) (h : s.mem.wf = true) : (s.setCell a v).mem.wf = true :=
  Memory.wf_write s.mem a.toNat v (by have := a.isLt; omega) h

end Sys2Proof.Machine
end

