-- ==== Sys2Proof/Laws/Ops.lean ====
section
/-! SUPPORT. What the keyboard poll, a memory read and the fetch can do, said once each. -/

namespace Sys2Proof.Machine

variable (s : State)

/-! ## The keyboard poll (R61) -/

/-- Everything the keyboard poll can do. -/
theorem State.keyboardPoll_cases :
    (∃ i, s.input.poll = (none, i) ∧
      s.keyboardPoll = (s.setInput i).setCell s.params.kbsrAddr 0x0000) ∨
    (∃ b i, s.input.poll = (some b, i) ∧
      s.keyboardPoll =
        ((s.setInput i).setCell s.params.kbsrAddr 0x8000).setCell s.params.kbdrAddr (zext b)) := by
  unfold State.keyboardPoll
  split
  · exact .inr ⟨_, _, by assumption, rfl⟩
  · exact .inl ⟨_, by assumption, rfl⟩

@[simp] theorem State.keyboardPoll_regs : s.keyboardPoll.regs = s.regs := by
  obtain ⟨i, -, h⟩ | ⟨b, i, -, h⟩ := s.keyboardPoll_cases <;> simp [h]

@[simp] theorem State.keyboardPoll_pc : s.keyboardPoll.pc = s.pc := by
  obtain ⟨i, -, h⟩ | ⟨b, i, -, h⟩ := s.keyboardPoll_cases <;> simp [h]

@[simp] theorem State.keyboardPoll_cond : s.keyboardPoll.cond = s.cond := by
  obtain ⟨i, -, h⟩ | ⟨b, i, -, h⟩ := s.keyboardPoll_cases <;> simp [h]

@[simp] theorem State.keyboardPoll_status : s.keyboardPoll.status = s.status := by
  obtain ⟨i, -, h⟩ | ⟨b, i, -, h⟩ := s.keyboardPoll_cases <;> simp [h]

@[simp] theorem State.keyboardPoll_output : s.keyboardPoll.output = s.output := by
  obtain ⟨i, -, h⟩ | ⟨b, i, -, h⟩ := s.keyboardPoll_cases <;> simp [h]

@[simp] theorem State.keyboardPoll_params : s.keyboardPoll.params = s.params := by
  obtain ⟨i, -, h⟩ | ⟨b, i, -, h⟩ := s.keyboardPoll_cases <;> simp [h]

@[simp] theorem State.keyboardPoll_input : s.keyboardPoll.input = s.input.poll.2 := by
  obtain ⟨i, hp, h⟩ | ⟨b, i, hp, h⟩ := s.keyboardPoll_cases <;> simp [h, hp]

/-- The poll touches the two keyboard cells only. -/
theorem State.keyboardPoll_cell_of_ne (a : Word) (h1 : a ≠ s.params.kbsrAddr)
    (h2 : a ≠ s.params.kbdrAddr) : s.keyboardPoll.cell a = s.cell a := by
  obtain ⟨i, -, h⟩ | ⟨b, i, -, h⟩ := s.keyboardPoll_cases <;> simp [h, State.cell_setCell, h1, h2]

theorem State.keyboardPoll_wf (h : s.mem.wf = true) : s.keyboardPoll.mem.wf = true := by
  obtain ⟨i, -, h'⟩ | ⟨b, i, -, h'⟩ := s.keyboardPoll_cases <;> rw [h']
  · exact State.wf_setCell _ _ _ h
  · exact State.wf_setCell _ _ _ (State.wf_setCell _ _ _ h)

/-! ## `MemRead` (R60) -/

/-- Everything a memory read can do. -/
theorem State.memRead_cases (a : Word) :
    (a ≠ s.params.kbsrAddr ∧ s.memRead a = (s.cell a, s)) ∨
    (a = s.params.kbsrAddr ∧ s.memRead a = (s.keyboardPoll.cell a, s.keyboardPoll)) := by
  unfold State.memRead
  by_cases h : a = s.params.kbsrAddr
  · exact .inr ⟨h, by simp [h]⟩
  · exact .inl ⟨h, by simp [h]⟩

theorem State.memRead_of_ne (a : Word) (h : a ≠ s.params.kbsrAddr) : s.memRead a = (s.cell a, s) := by
  simp [State.memRead, h]

/-- A read returns what the cell holds after it (R72). -/
theorem State.memRead_value (a : Word) : (s.memRead a).1 = (s.memRead a).2.cell a := by
  obtain ⟨-, h⟩ | ⟨-, h⟩ := s.memRead_cases a <;> rw [h]

@[simp] theorem State.memRead_regs (a : Word) : (s.memRead a).2.regs = s.regs := by
  obtain ⟨-, h⟩ | ⟨-, h⟩ := s.memRead_cases a <;> simp [h]

@[simp] theorem State.memRead_pc (a : Word) : (s.memRead a).2.pc = s.pc := by
  obtain ⟨-, h⟩ | ⟨-, h⟩ := s.memRead_cases a <;> simp [h]

@[simp] theorem State.memRead_cond (a : Word) : (s.memRead a).2.cond = s.cond := by
  obtain ⟨-, h⟩ | ⟨-, h⟩ := s.memRead_cases a <;> simp [h]

@[simp] theorem State.memRead_status (a : Word) : (s.memRead a).2.status = s.status := by
  obtain ⟨-, h⟩ | ⟨-, h⟩ := s.memRead_cases a <;> simp [h]

@[simp] theorem State.memRead_output (a : Word) : (s.memRead a).2.output = s.output := by
  obtain ⟨-, h⟩ | ⟨-, h⟩ := s.memRead_cases a <;> simp [h]

@[simp] theorem State.memRead_params (a : Word) : (s.memRead a).2.params = s.params := by
  obtain ⟨-, h⟩ | ⟨-, h⟩ := s.memRead_cases a <;> simp [h]

@[simp] theorem State.memRead_reg (a : Word) (q : Reg) : (s.memRead a).2.reg q = s.reg q := by
  simp [State.reg]

/-- A read touches the two keyboard cells only. -/
theorem State.memRead_cell_of_ne (a b : Word) (h1 : b ≠ s.params.kbsrAddr)
    (h2 : b ≠ s.params.kbdrAddr) : (s.memRead a).2.cell b = s.cell b := by
  obtain ⟨-, h⟩ | ⟨-, h⟩ := s.memRead_cases a <;> simp [h, State.keyboardPoll_cell_of_ne, h1, h2]

theorem State.memRead_wf (a : Word) (h : s.mem.wf = true) : (s.memRead a).2.mem.wf = true := by
  obtain ⟨-, h'⟩ | ⟨-, h'⟩ := s.memRead_cases a <;> simp [h', h, State.keyboardPoll_wf]

theorem State.memWrite_wf (a v : Word) (h : s.mem.wf = true) : (s.memWrite a v).mem.wf = true :=
  State.wf_setCell s a v h

/-! ## The fetch (R121) -/

@[simp] theorem State.fetch_word : s.fetch.1 = (s.memRead s.pc).1 := rfl
@[simp] theorem State.fetch_pc : s.fetch.2.pc = s.pc + 1 := rfl
@[simp] theorem State.fetch_regs : s.fetch.2.regs = s.regs := by simp [State.fetch]
@[simp] theorem State.fetch_cond : s.fetch.2.cond = s.cond := by simp [State.fetch]
@[simp] theorem State.fetch_status : s.fetch.2.status = s.status := by simp [State.fetch]
@[simp] theorem State.fetch_output : s.fetch.2.output = s.output := by simp [State.fetch]
@[simp] theorem State.fetch_params : s.fetch.2.params = s.params := by simp [State.fetch]
@[simp] theorem State.fetch_mem : s.fetch.2.mem = (s.memRead s.pc).2.mem := rfl
@[simp] theorem State.fetch_input : s.fetch.2.input = (s.memRead s.pc).2.input := rfl
@[simp] theorem State.fetch_reg (q : Reg) : s.fetch.2.reg q = s.reg q := by simp [State.reg]

end Sys2Proof.Machine
end

