-- ==== Sys2Proof/Laws/Operands.lean ====
section
/-! SUPPORT. The condition register, sign extension, the operand forms and the shared load. -/

namespace Sys2Proof.Machine

/-! ## COND (R37) -/

/-- The three cases of the derivation, one for each value of COND. -/
theorem condOf_cases (v : Word) :
    (v = 0 ∧ condOf v = .zro) ∨ (v ≠ 0 ∧ v.getLsbD 15 = true ∧ condOf v = .neg) ∨
      (v ≠ 0 ∧ v.getLsbD 15 = false ∧ condOf v = .pos) := by
  unfold condOf
  by_cases h : v = 0
  · exact .inl ⟨h, if_pos h⟩
  · rw [if_neg h]
    by_cases h2 : v.getLsbD 15 = true
    · exact .inr (.inl ⟨h, h2, if_pos h2⟩)
    · exact .inr (.inr ⟨h, by simpa using h2, if_neg h2⟩)

/-! ## Sign extension (R21) -/

/-- The bits of a widened field: its own below, its sign above. -/
theorem getLsbD_sextField {n : Nat} (f : BitVec n) (k : Nat) (hk : k < 16) :
    (sextField f).getLsbD k = if k < n then f.getLsbD k else f.msb := by
  rw [sextField, BitVec.getLsbD_signExtend]
  simp only [hk, decide_true, Bool.true_and]

/-! ## Addresses (R159) -/

/-- The pointer read of LDI and STI is `MemRead` at the PC-relative address. -/
theorem State.indirect_eq (s : State) (off : BitVec 9) : s.indirect off = s.memRead (s.pcRelative off) :=
  rfl

/-! ## Loads -/

/-- Everything a load does: the register, COND, and otherwise what its one memory read did. -/
theorem State.loadInto_spec (s : State) (dr : Reg) (a : Word) :
    (∀ q, (s.loadInto dr a).reg q = if q = dr then (s.memRead a).1 else s.reg q) ∧
    (s.loadInto dr a).cond = condOf (s.memRead a).1 ∧
    (s.loadInto dr a).pc = s.pc ∧
    (∀ b, (s.loadInto dr a).cell b = (s.memRead a).2.cell b) ∧
    (s.loadInto dr a).input = (s.memRead a).2.input ∧
    (s.loadInto dr a).output = s.output ∧
    (s.loadInto dr a).status = s.status ∧ (s.loadInto dr a).params = s.params := by
  unfold State.loadInto
  refine ⟨fun q => ?_, ?_, ?_, fun b => ?_, ?_, ?_, ?_, ?_⟩ <;> simp [State.reg_writeAndUpdate]

end Sys2Proof.Machine
end

