-- ==== Sys2Proof/Laws/PerInstr.lean ====
section
/-! SUPPORT. Laws of every instruction as syntax, one lemma per constructor: the word of an instruction lies
in the instruction's row of the opcode table (R100). -/

namespace Sys2Proof.Laws

/-- The word of an instruction has the bits its row of the opcode table fixes (R100). -/
def EncodesRow.Statement (i : Instr) : Prop := i.row.covers (encode i) = true

/-- A row covers a word when the fixed bits agree, one by one. -/
theorem EncodesRow.of_bits (r : TableRow) (w : Word)
    (h : ∀ k, k < 16 → (w.getLsbD k && r.mask.getLsbD k) = r.value.getLsbD k) : r.covers w = true := by
  have : w &&& r.mask = r.value := by
    apply BitVec.eq_of_getLsbD_eq
    intro k hk
    rw [BitVec.getLsbD_and, h k hk]
  simp [TableRow.covers, this]

theorem EncodesRow.pc9 (op : BitVec 4) (m : String) (r : BitVec 3) (off : BitVec 9) :
    TableRow.covers ⟨m, 0xF000, op ++ 0#12⟩ (encodePC9 op r off) = true := by
  apply EncodesRow.of_bits
  intro k hk
  interval_cases k <;>
    simp only [getLsbD_encodePC9, BitVec.getLsbD_append] <;> simp

theorem EncodesRow.base6 (op : BitVec 4) (m : String) (hi base : BitVec 3) (lo : BitVec 6) :
    TableRow.covers ⟨m, 0xF000, op ++ 0#12⟩ (encodeBASE6 op hi base lo) = true := by
  apply EncodesRow.of_bits
  intro k hk
  interval_cases k <;>
    simp only [getLsbD_encodeBASE6, BitVec.getLsbD_append] <;> simp

theorem EncodesRow.opr (op : BitVec 4) (m : String) (dr sr1 : Reg) (ign : BitVec 2) (sr2 : Reg) :
    TableRow.covers ⟨m, 0xF020, op ++ 0x000#12⟩ (encodeOPR op dr sr1 ign sr2) = true := by
  apply EncodesRow.of_bits
  intro k hk
  interval_cases k <;>
    simp only [getLsbD_encodeOPR, BitVec.getLsbD_append] <;> simp

theorem EncodesRow.opi (op : BitVec 4) (m : String) (dr sr1 : Reg) (imm : BitVec 5) :
    TableRow.covers ⟨m, 0xF020, op ++ 0x020#12⟩ (encodeOPI op dr sr1 imm) = true := by
  apply EncodesRow.of_bits
  intro k hk
  interval_cases k <;>
    simp only [getLsbD_encodeOPI, BitVec.getLsbD_append] <;> simp

theorem EncodesRow.trap (m : String) (ign : BitVec 4) (code : BitVec 8) :
    TableRow.covers ⟨m, 0xF0FF, 0xF0#8 ++ code⟩ (encodeTRAP ign code) = true := by
  apply EncodesRow.of_bits
  intro k hk
  interval_cases k <;>
    simp only [getLsbD_encodeTRAP, BitVec.getLsbD_append] <;> simp

theorem EncodesRow.br (n z p : Bool) (off : BitVec 9) : EncodesRow.Statement (.br n z p off) :=
  EncodesRow.pc9 0x0 _ _ off

theorem EncodesRow.addReg (dr sr1 : Reg) (ign : BitVec 2) (sr2 : Reg) :
    EncodesRow.Statement (.addReg dr sr1 ign sr2) := EncodesRow.opr 0x1 _ dr sr1 ign sr2

theorem EncodesRow.addImm (dr sr1 : Reg) (imm : BitVec 5) : EncodesRow.Statement (.addImm dr sr1 imm) :=
  EncodesRow.opi 0x1 _ dr sr1 imm

theorem EncodesRow.ld (dr : Reg) (off : BitVec 9) : EncodesRow.Statement (.ld dr off) :=
  EncodesRow.pc9 0x2 _ _ off

theorem EncodesRow.st (sr : Reg) (off : BitVec 9) : EncodesRow.Statement (.st sr off) :=
  EncodesRow.pc9 0x3 _ _ off

theorem EncodesRow.jsr (off : BitVec 11) : EncodesRow.Statement (.jsr off) := by
  apply EncodesRow.of_bits
  intro k hk
  interval_cases k <;> simp only [encode, Instr.row, BitVec.getLsbD_append] <;> simp

theorem EncodesRow.jsrr (ignHi : BitVec 2) (base : Reg) (ignLo : BitVec 6) :
    EncodesRow.Statement (.jsrr ignHi base ignLo) := by
  apply EncodesRow.of_bits
  intro k hk
  interval_cases k <;> simp only [encode, Instr.row, BitVec.getLsbD_append] <;> simp

theorem EncodesRow.andReg (dr sr1 : Reg) (ign : BitVec 2) (sr2 : Reg) :
    EncodesRow.Statement (.andReg dr sr1 ign sr2) := EncodesRow.opr 0x5 _ dr sr1 ign sr2

theorem EncodesRow.andImm (dr sr1 : Reg) (imm : BitVec 5) : EncodesRow.Statement (.andImm dr sr1 imm) :=
  EncodesRow.opi 0x5 _ dr sr1 imm

theorem EncodesRow.ldr (dr base : Reg) (off : BitVec 6) : EncodesRow.Statement (.ldr dr base off) :=
  EncodesRow.base6 0x6 _ _ _ off

theorem EncodesRow.str (sr base : Reg) (off : BitVec 6) : EncodesRow.Statement (.str sr base off) :=
  EncodesRow.base6 0x7 _ _ _ off

theorem EncodesRow.not (dr sr : Reg) (ign : BitVec 6) : EncodesRow.Statement (.not dr sr ign) :=
  EncodesRow.base6 0x9 _ _ _ ign

theorem EncodesRow.ldi (dr : Reg) (off : BitVec 9) : EncodesRow.Statement (.ldi dr off) :=
  EncodesRow.pc9 0xA _ _ off

theorem EncodesRow.sti (sr : Reg) (off : BitVec 9) : EncodesRow.Statement (.sti sr off) :=
  EncodesRow.pc9 0xB _ _ off

theorem EncodesRow.jmp (ignHi : BitVec 3) (base : Reg) (ignLo : BitVec 6) :
    EncodesRow.Statement (.jmp ignHi base ignLo) := EncodesRow.base6 0xC _ _ _ ignLo

theorem EncodesRow.lea (dr : Reg) (off : BitVec 9) : EncodesRow.Statement (.lea dr off) :=
  EncodesRow.pc9 0xE _ _ off

theorem EncodesRow.trapGetc (ign : BitVec 4) : EncodesRow.Statement (.trapGetc ign) :=
  EncodesRow.trap _ ign 0x20

theorem EncodesRow.trapOut (ign : BitVec 4) : EncodesRow.Statement (.trapOut ign) :=
  EncodesRow.trap _ ign 0x21

theorem EncodesRow.trapPuts (ign : BitVec 4) : EncodesRow.Statement (.trapPuts ign) :=
  EncodesRow.trap _ ign 0x22

theorem EncodesRow.trapIn (ign : BitVec 4) : EncodesRow.Statement (.trapIn ign) :=
  EncodesRow.trap _ ign 0x23

theorem EncodesRow.trapPutsp (ign : BitVec 4) : EncodesRow.Statement (.trapPutsp ign) :=
  EncodesRow.trap _ ign 0x24

theorem EncodesRow.trapHalt (ign : BitVec 4) : EncodesRow.Statement (.trapHalt ign) :=
  EncodesRow.trap _ ign 0x25

theorem EncodesRow.trapUnknown (ign : BitVec 4) (code : BitVec 8) :
    EncodesRow.Statement (.trapUnknown ign code) := by
  apply EncodesRow.of_bits
  intro k hk
  interval_cases k <;> simp only [encode, Instr.row, getLsbD_encodeTRAP] <;> simp

theorem EncodesRow.rti (ign : BitVec 12) : EncodesRow.Statement (.rti ign) := by
  apply EncodesRow.of_bits
  intro k hk
  interval_cases k <;> simp only [encode, Instr.row, BitVec.getLsbD_append] <;> simp

theorem EncodesRow.res (ign : BitVec 12) : EncodesRow.Statement (.res ign) := by
  apply EncodesRow.of_bits
  intro k hk
  interval_cases k <;> simp only [encode, Instr.row, BitVec.getLsbD_append] <;> simp

end Sys2Proof.Laws
end

