-- ==== Sys2Proof/Laws/Scan.lean ====
section
/-! SUPPORT. What the loop of PUTS and PUTSP can do: what it leaves alone, what it writes for a terminated
string, and when it never ends (R226). -/

namespace Sys2Proof.Machine

variable (bytes : Word → List Byte)

/-! ## What the scan keeps -/

/-- A property that memory reads and output keep is kept by the scan. -/
theorem scanString_keeps (P : State → Prop) (hread : ∀ s a, P s → P (s.memRead a).2)
    (hout : ∀ s bs, P s → P (s.out bs)) :
    ∀ (n : Nat) (a : Word) (s t : State), P s → scanString bytes n a s = some t → P t := by
  intro n
  induction n with
  | zero => intro a s t _ h; simp [scanString] at h
  | succ n ih =>
    intro a s t hs h
    unfold scanString at h
    split at h
    · cases h; exact hread s a hs
    · exact ih _ _ _ (hout _ _ (hread s a hs)) h

/-- The scan writes no register, no flag, neither PC nor the run status, and no parameter. -/
theorem scanString_frame (n : Nat) (a : Word) (s t : State) (h : scanString bytes n a s = some t) :
    t.regs = s.regs ∧ t.pc = s.pc ∧ t.cond = s.cond ∧ t.status = s.status ∧ t.params = s.params := by
  refine scanString_keeps bytes (fun u => u.regs = s.regs ∧ u.pc = s.pc ∧ u.cond = s.cond ∧
    u.status = s.status ∧ u.params = s.params) ?_ ?_ n a s t ⟨rfl, rfl, rfl, rfl, rfl⟩ h
  · intro u b hu; simpa using hu
  · intro u bs hu; simpa using hu

/-- The scan touches the two keyboard cells only. -/
theorem scanString_cell_of_ne (n : Nat) (a b : Word) (s t : State)
    (h1 : b ≠ s.params.kbsrAddr) (h2 : b ≠ s.params.kbdrAddr) (h : scanString bytes n a s = some t) :
    t.cell b = s.cell b := by
  refine (scanString_keeps bytes (fun u => u.cell b = s.cell b ∧ u.params = s.params) ?_ ?_
    n a s t ⟨rfl, rfl⟩ h).1
  · rintro u c ⟨hc, hp⟩
    rw [State.memRead_cell_of_ne u c b (by rw [hp]; exact h1) (by rw [hp]; exact h2)]
    exact ⟨hc, by simpa using hp⟩
  · intro u bs hu; simpa using hu

theorem scanString_wf (n : Nat) (a : Word) (s t : State) (hs : s.mem.wf = true)
    (h : scanString bytes n a s = some t) : t.mem.wf = true :=
  scanString_keeps bytes (fun u => u.mem.wf = true) (fun u b hu => State.memRead_wf u b hu)
    (fun u bs hu => by simpa using hu) n a s t hs h

/-- The scan only appends to the output. -/
theorem scanString_output (n : Nat) (a : Word) (s t : State) (h : scanString bytes n a s = some t) :
    ∃ bs, t.output = s.output ++ bs := by
  refine scanString_keeps bytes (fun u => ∃ bs, u.output = s.output ++ bs) ?_ ?_
    n a s t ⟨[], by simp⟩ h
  · intro u b hu; simpa using hu
  · rintro u bs ⟨cs, hc⟩; exact ⟨cs ++ bs, by simp [hc]⟩

/-! ## A terminated string away from the keyboard status cell -/

/-- The scan of a string of `k` non-zero cells with a zero cell after them, none of them KBSR, writes the
bytes of the cells in order and changes nothing else. -/
theorem scanString_string (k : Nat) : ∀ (fuel : Nat) (a : Word) (s : State), k < fuel →
    (∀ j, j ≤ k → a + BitVec.ofNat 16 j ≠ s.params.kbsrAddr) →
    (∀ j, j < k → s.cell (a + BitVec.ofNat 16 j) ≠ 0) → s.cell (a + BitVec.ofNat 16 k) = 0 →
    scanString bytes fuel a s =
      some (s.out ((List.range k).flatMap fun j => bytes (s.cell (a + BitVec.ofNat 16 j)))) := by
  induction k with
  | zero =>
    intro fuel a s hf hk _ hz
    obtain ⟨f, rfl⟩ : ∃ f, fuel = f + 1 := ⟨fuel - 1, by omega⟩
    have h0 : a ≠ s.params.kbsrAddr := by simpa using hk 0 le_rfl
    have hz' : s.cell a = 0 := by simpa using hz
    rw [scanString, State.memRead_of_ne s a h0]
    simp [hz', State.out]
  | succ k ih =>
    intro fuel a s hf hk hn hz
    obtain ⟨f, rfl⟩ : ∃ f, fuel = f + 1 := ⟨fuel - 1, by omega⟩
    have h0 : a ≠ s.params.kbsrAddr := by simpa using hk 0 (Nat.zero_le _)
    have hn0 : s.cell a ≠ 0 := by simpa using hn 0 (Nat.succ_pos k)
    have hshift : ∀ j, a + 1 + BitVec.ofNat 16 j = a + BitVec.ofNat 16 (j + 1) := by
      intro j; rw [Nat.add_comm j 1, BitVec.ofNat_add, ← BitVec.add_assoc]; rfl
    rw [scanString, State.memRead_of_ne s a h0]
    simp only [if_neg hn0]
    rw [ih f (a + 1) (s.out (bytes (s.cell a))) (by omega)
      (fun j hj => by rw [hshift]; exact hk (j + 1) (by omega))
      (fun j hj => by rw [hshift]; exact hn (j + 1) (by omega)) (by rw [hshift]; exact hz)]
    simp only [State.cell_out, hshift, List.range_succ_eq_map, List.flatMap_cons, List.flatMap_map]
    simp [State.out]

/-! ## A scan that never ends -/

/-- The state after `n` cells were read, all of them non-zero; `none` if one was zero. -/
def scanRun : Nat → Word → State → Option State
  | 0, _, s => some s
  | n + 1, a, s =>
    if (s.memRead a).1 = 0 then none
    else scanRun n (a + 1) ((s.memRead a).2.out (bytes (s.memRead a).1))

theorem scanString_eq_none_iff (n : Nat) : ∀ (a : Word) (s : State),
    scanString bytes n a s = none ↔ (scanRun bytes n a s).isSome = true := by
  induction n with
  | zero => intro a s; simp [scanString, scanRun]
  | succ n ih =>
    intro a s
    unfold scanString scanRun
    split
    · simp
    · exact ih _ _

theorem scanRun_add (m n : Nat) : ∀ (a : Word) (s : State),
    scanRun bytes (m + n) a s =
      (scanRun bytes m a s).bind fun t => scanRun bytes n (a + BitVec.ofNat 16 m) t := by
  induction m with
  | zero => intro a s; simp [scanRun]
  | succ m ih =>
    intro a s
    rw [show m + 1 + n = (m + n) + 1 by omega]
    simp only [scanRun]
    split
    · rfl
    · rw [ih]
      congr 1
      funext t
      rw [Nat.add_comm m 1, BitVec.ofNat_add, ← BitVec.add_assoc]
      rfl

/-- Two states a scan cannot tell apart: the same cells, input and parameters. -/
def SameToScan (s t : State) : Prop :=
  (∀ a, t.cell a = s.cell a) ∧ t.input = s.input ∧ t.params = s.params

theorem SameToScan.keyboardPoll {s t : State} (h : SameToScan s t) :
    SameToScan s.keyboardPoll t.keyboardPoll := by
  obtain ⟨hc, hi, hp⟩ := h
  unfold State.keyboardPoll
  rw [hi, hp]
  split <;> exact ⟨fun a => by simp [State.cell_setCell, hc], by simp, by simpa using hp⟩

theorem SameToScan.memRead {s t : State} (h : SameToScan s t) (a : Word) :
    (t.memRead a).1 = (s.memRead a).1 ∧ SameToScan (s.memRead a).2 (t.memRead a).2 := by
  unfold State.memRead
  rw [h.2.2]
  split
  · exact ⟨h.keyboardPoll.1 a, h.keyboardPoll⟩
  · exact ⟨h.1 a, h⟩

theorem SameToScan.out {s t : State} (h : SameToScan s t) (bs cs : List Byte) :
    SameToScan (s.out bs) (t.out cs) := ⟨fun a => by simpa using h.1 a, by simpa using h.2.1, by simpa using h.2.2⟩

/-- States a scan cannot tell apart stay so along it, and end or go on together. -/
theorem scanRun_congr (n : Nat) : ∀ (a : Word) (s t : State), SameToScan s t →
    ((scanRun bytes n a s = none ∧ scanRun bytes n a t = none) ∨
      ∃ s' t', scanRun bytes n a s = some s' ∧ scanRun bytes n a t = some t' ∧ SameToScan s' t') := by
  induction n with
  | zero => intro a s t h; exact .inr ⟨s, t, rfl, rfl, h⟩
  | succ n ih =>
    intro a s t h
    obtain ⟨h1, h2⟩ := h.memRead a
    unfold scanRun
    rw [h1]
    split
    · exact .inl ⟨rfl, rfl⟩
    · exact ih _ _ _ (h2.out _ _)

/-- A stretch of a scan that does not meet KBSR polls nothing. -/
theorem scanRun_noPoll (n : Nat) : ∀ (a : Word) (s t : State),
    (∀ j, j < n → a + BitVec.ofNat 16 j ≠ s.params.kbsrAddr) → scanRun bytes n a s = some t →
    SameToScan s t := by
  induction n with
  | zero => intro a s t _ h; cases h; exact ⟨fun _ => rfl, rfl, rfl⟩
  | succ n ih =>
    intro a s t hk h
    have h0 : a ≠ s.params.kbsrAddr := by simpa using hk 0 (Nat.succ_pos n)
    unfold scanRun at h
    rw [State.memRead_of_ne s a h0] at h
    split at h
    · cases h
    · have := ih (a + 1) (s.out (bytes (s.cell a))) t (fun j hj => by
        have := hk (j + 1) (by omega)
        rw [Nat.add_comm j 1, BitVec.ofNat_add, ← BitVec.add_assoc] at this
        exact this) h
      exact ⟨fun b => by simpa using this.1 b, by simpa using this.2.1, by simpa using this.2.2⟩

/-- One pass over all 65536 cells without a zero takes exactly one byte, by one poll, and leaves what that
poll leaves. -/
theorem scanRun_pass (a : Word) (s t : State) (h : scanRun bytes 65536 a s = some t) :
    ∃ b ks, s.input.upcoming = ⟨b, 0⟩ :: ks ∧ SameToScan s.keyboardPoll t ∧
      t.input = { s.input with keys := ks } := by
  obtain ⟨d, hd⟩ : ∃ d, d = (s.params.kbsrAddr - a).toNat := ⟨_, rfl⟩
  have hd' : d < 65536 := by rw [hd]; exact (s.params.kbsrAddr - a).isLt
  have hat : ∀ j, j < 65536 → (a + BitVec.ofNat 16 j = s.params.kbsrAddr ↔ j = d) := by
    intro j hj
    rw [hd]
    constructor
    · intro he
      rw [← he, BitVec.add_comm a, BitVec.add_sub_cancel, BitVec.toNat_ofNat, Nat.mod_eq_of_lt hj]
    · intro he
      rw [he, BitVec.ofNat_toNat, BitVec.setWidth_eq, BitVec.add_comm, BitVec.sub_add_cancel]
  rw [show 65536 = d + (1 + (65535 - d)) by omega, scanRun_add] at h
  obtain ⟨u, hu, h⟩ := Option.bind_eq_some_iff.mp h
  have su : SameToScan s u := scanRun_noPoll bytes d a s u
    (fun j hj he => by have := (hat j (by omega)).mp he; omega) hu
  rw [scanRun_add] at h
  obtain ⟨v, hv, h⟩ := Option.bind_eq_some_iff.mp h
  have hk : a + BitVec.ofNat 16 d = s.params.kbsrAddr := (hat d hd').mpr rfl
  rw [hk] at hv h
  simp only [scanRun] at hv
  have hread : u.memRead s.params.kbsrAddr = (u.keyboardPoll.cell s.params.kbsrAddr, u.keyboardPoll) := by
    simp [State.memRead, su.2.2]
  rw [hread] at hv
  split at hv
  · cases hv
  · rename_i hne
    cases hv
    have sp := su.keyboardPoll
    have st := scanRun_noPoll bytes (65535 - d) _ _ t (fun j hj he => by
      have hj' : a + BitVec.ofNat 16 (d + (1 + j)) = s.params.kbsrAddr := by
        rw [BitVec.ofNat_add, ← BitVec.add_assoc, hk, BitVec.ofNat_add, ← BitVec.add_assoc]
        simpa [su.2.2] using he
      have := (hat (d + (1 + j)) (by omega)).mp hj'
      omega) h
    have sst : SameToScan s.keyboardPoll t := by
      refine ⟨fun b => ?_, ?_, ?_⟩
      · rw [st.1 b]; simpa using sp.1 b
      · rw [st.2.1]; simpa using sp.2.1
      · rw [st.2.2]; simpa using sp.2.2
    obtain ⟨-, hp⟩ | ⟨b, ks, hup, hp⟩ | ⟨b, n, ks, -, hp⟩ := s.input.poll_cases
    · exfalso; apply hne
      rw [sp.1]; simp [State.keyboardPoll, hp]
    · refine ⟨b, ks, hup, sst, ?_⟩
      rw [sst.2.1]; simp [hp]
    · exfalso; apply hne
      rw [sp.1]; simp [State.keyboardPoll, hp]

/-- `n` passes over all of memory come back to the address they began at. -/
theorem scanRun_passes (m n : Nat) (a : Word) (s : State) :
    scanRun bytes (65536 * m + n) a s = (scanRun bytes (65536 * m) a s).bind (scanRun bytes n a) := by
  rw [scanRun_add]
  congr 1
  funext t
  rw [BitVec.ofNat_mul]
  simp

/-- The passes use up the bytes listed, one each. -/
theorem scanRun_keys (m : Nat) : ∀ (a : Word) (s t : State),
    scanRun bytes (65536 * m) a s = some t →
    t.input.keys.length = s.input.keys.length - m ∧ t.input.endless = s.input.endless ∧
      (s.input.endless = none → m ≤ s.input.keys.length) := by
  induction m with
  | zero => intro a s t h; cases h; simp
  | succ m ih =>
    intro a s t h
    rw [show 65536 * (m + 1) = 65536 * 1 + 65536 * m by omega, scanRun_passes] at h
    obtain ⟨u, hu, h⟩ := Option.bind_eq_some_iff.mp h
    obtain ⟨b, ks, hup, -, hi⟩ := scanRun_pass bytes a s u hu
    obtain ⟨h1, h2, h3⟩ := ih a u t h
    rw [hi] at h1 h2 h3
    simp only at h1 h2 h3
    unfold Input.upcoming at hup
    split at hup
    · rename_i he
      cases hen : s.input.endless with
      | none => rw [hen] at hup; cases hup
      | some k =>
        rw [hen] at hup
        obtain ⟨-, rfl⟩ := List.cons.inj hup
        rw [he]
        refine ⟨by simpa using h1, by rw [h2, hen], by simp⟩
    · rename_i k ks' he
      obtain ⟨-, rfl⟩ := List.cons.inj hup
      rw [he]
      refine ⟨by rw [h1]; simp, h2, fun hn => by have := h3 hn; simp; omega⟩

/-- Once the listed bytes are used up, one more pass changes nothing that a scan can see. -/
theorem scanRun_pass_fixed (a : Word) (s t u : State) (hk : s.input.keys = [])
    (h1 : scanRun bytes 65536 a s = some t) (h2 : scanRun bytes 65536 a t = some u) : SameToScan t u := by
  obtain ⟨b, ks, hup, hst, hi⟩ := scanRun_pass bytes a s t h1
  obtain ⟨c, ls, hup', htu, hi'⟩ := scanRun_pass bytes a t u h2
  have hks : ks = [] := by
    simp only [Input.upcoming, hk] at hup
    cases he : s.input.endless with
    | none => rw [he] at hup; cases hup
    | some k => rw [he] at hup; exact (List.cons.inj hup).2.symm
  subst hks
  have hti : t.input = s.input := by
    rw [hi]
    cases hs : s.input with
    | mk keys endless ended => rw [hs] at hk; simp only at hk; simp [hk]
  have hb : (⟨b, 0⟩ : Keystroke) :: [] = ⟨c, 0⟩ :: ls := by rw [← hup, ← hup', hti]
  obtain ⟨hbc, rfl⟩ := List.cons.inj hb
  have hbc' : b = c := congrArg Keystroke.byte hbc
  have hps : s.input.poll = (some b, { s.input with keys := [] }) := by
    unfold Input.poll; rw [hup]
  have hpt : t.input.poll = (some b, { t.input with keys := [] }) := by
    unfold Input.poll; rw [hup', hbc']
  have htp : t.params = s.params := by rw [hst.2.2]; simp
  refine ⟨fun x => ?_, ?_, ?_⟩
  · rw [htu.1 x]
    have hx := hst.1 x
    unfold State.keyboardPoll at hx ⊢
    rw [hpt]
    rw [hps] at hx
    simp only [State.cell_setCell, State.cell_setInput, htp] at hx ⊢
    by_cases hd : x = s.params.kbdrAddr
    · rw [if_pos hd] at hx ⊢; exact hx.symm
    · by_cases hs : x = s.params.kbsrAddr
      · rw [if_neg hd, if_pos hs] at hx ⊢; exact hx.symm
      · rw [if_neg hd, if_neg hs]
  · rw [hi', hti]
    cases hs : s.input with
    | mk keys endless ended => rw [hs] at hk; simp only at hk; simp [hk]
  · rw [htu.2.2]; simp

/-- From a state that one pass leaves as it was, as far as a scan can see, the passes never end. -/
theorem scanRun_forever (a : Word) (n : Nat) : ∀ (s t : State), scanRun bytes 65536 a s = some t →
    SameToScan s t → (scanRun bytes (65536 * n) a s).isSome = true := by
  induction n with
  | zero => intro s t _ _; simp [scanRun]
  | succ n ih =>
    intro s t h hst
    rw [show 65536 * (n + 1) = 65536 * 1 + 65536 * n by omega, scanRun_passes, Nat.mul_one, h,
      Option.bind_some]
    obtain ⟨h1, -⟩ | ⟨s', t', h1, h2, h3⟩ := scanRun_congr bytes 65536 a s t hst
    · rw [h] at h1; cases h1
    · have hs' : s' = t := by rw [h] at h1; exact (Option.some.inj h1).symm
      subst hs'
      exact ih s' t' h2 h3

/-- A longer run that meets no zero cell has every shorter one behind it. -/
theorem scanRun_isSome_of_le {m n : Nat} (hmn : m ≤ n) (a : Word) (s : State)
    (h : (scanRun bytes n a s).isSome = true) : (scanRun bytes m a s).isSome = true := by
  obtain ⟨d, rfl⟩ := Nat.exists_eq_add_of_le hmn
  rw [scanRun_add] at h
  cases hm : scanRun bytes m a s with
  | none => rw [hm] at h; cases h
  | some t => rfl

/-- The fuel decides: a scan that meets no zero cell within it meets none at all (R226). -/
theorem scanString_none_forever (a : Word) (s : State) (h : scanString bytes (scanFuel s) a s = none) :
    ∀ n, scanString bytes n a s = none := by
  intro n
  rw [scanString_eq_none_iff] at h ⊢
  obtain ⟨k, hk⟩ : ∃ k, k = s.input.keys.length := ⟨_, rfl⟩
  have hf : scanFuel s = 65536 * k + (65536 + 65536) := by unfold scanFuel; omega
  rw [hf, scanRun_passes] at h
  cases hu : scanRun bytes (65536 * k) a s with
  | none => rw [hu] at h; cases h
  | some u =>
    rw [hu, Option.bind_some, show (65536 + 65536 : Nat) = 65536 * 1 + 65536 by omega, scanRun_passes,
      Nat.mul_one] at h
    have hu0 : u.input.keys = [] := by
      have := (scanRun_keys bytes k a s u hu).1
      rw [← hk] at this
      exact List.length_eq_zero_iff.mp (by omega)
    cases hv : scanRun bytes 65536 a u with
    | none => rw [hv] at h; cases h
    | some v =>
      rw [hv, Option.bind_some] at h
      cases hw : scanRun bytes 65536 a v with
      | none => rw [hw] at h; cases h
      | some w =>
        have hvw := scanRun_pass_fixed bytes a u v w hu0 hv hw
        have hall := scanRun_forever bytes a n v w hw hvw
        apply scanRun_isSome_of_le bytes (n := 65536 * k + (65536 * 1 + 65536 * n)) (by omega)
        rw [scanRun_passes, hu, Option.bind_some, scanRun_passes, Nat.mul_one, hv, Option.bind_some]
        exact hall

/-- A host that does not type without end lets every scan end. -/
theorem scanString_ends (a : Word) (s : State) (h : s.input.endless = none) :
    ∃ t, scanString bytes (scanFuel s) a s = some t := by
  cases hs : scanString bytes (scanFuel s) a s with
  | some t => exact ⟨t, rfl⟩
  | none =>
    exfalso
    rw [scanString_eq_none_iff] at hs
    unfold scanFuel at hs
    obtain ⟨t, ht⟩ := Option.isSome_iff_exists.mp hs
    have := (scanRun_keys bytes _ a s t ht).2.2 h
    omega

/-- More fuel changes nothing once a zero cell was met. -/
theorem scanString_mono {m n : Nat} (hmn : m ≤ n) : ∀ (a : Word) (s t : State),
    scanString bytes m a s = some t → scanString bytes n a s = some t := by
  induction m generalizing n with
  | zero => intro a s t h; simp [scanString] at h
  | succ m ih =>
    intro a s t h
    obtain ⟨k, rfl⟩ : ∃ k, n = k + 1 := ⟨n - 1, by omega⟩
    unfold scanString at h ⊢
    split
    · rename_i h0; rw [if_pos h0] at h; exact h
    · rename_i h0; rw [if_neg h0] at h; exact ih (by omega) _ _ _ h

end Sys2Proof.Machine
end

