-- ==== Sys2Proof/Laws/Trap.lean ====
section
/-! SUPPORT. What the shared parts of the trap routines can do, said once each. -/

namespace Sys2Proof.Machine

variable (s : State)

/-! ## The R7 link (R212) -/

@[simp] theorem State.trapLink_pc : s.trapLink.pc = s.pc := by unfold State.trapLink; split <;> rfl
@[simp] theorem State.trapLink_cond : s.trapLink.cond = s.cond := by unfold State.trapLink; split <;> rfl
@[simp] theorem State.trapLink_mem : s.trapLink.mem = s.mem := by unfold State.trapLink; split <;> rfl
@[simp] theorem State.trapLink_status : s.trapLink.status = s.status := by
  unfold State.trapLink; split <;> rfl
@[simp] theorem State.trapLink_input : s.trapLink.input = s.input := by
  unfold State.trapLink; split <;> rfl
@[simp] theorem State.trapLink_output : s.trapLink.output = s.output := by
  unfold State.trapLink; split <;> rfl
@[simp] theorem State.trapLink_params : s.trapLink.params = s.params := by
  unfold State.trapLink; split <;> rfl
@[simp] theorem State.trapLink_cell (a : Word) : s.trapLink.cell a = s.cell a := by simp [State.cell]

/-- The registers after the link: R7 holds the advanced PC when TRAP_LINKS_R7, all else as before. -/
theorem State.trapLink_reg (q : Reg) :
    s.trapLink.reg q = if s.params.trapLinksR7 = true ∧ q = .r7 then s.pc else s.reg q := by
  unfold State.trapLink
  cases s.params.trapLinksR7 <;> simp [State.reg_setReg]

/-- The link touches R7 only. -/
theorem State.trapLink_reg_of_ne (q : Reg) (h : q ∉ s.params.linked) : s.trapLink.reg q = s.reg q := by
  rw [State.trapLink_reg]
  cases hl : s.params.trapLinksR7
  · simp
  · simp [Params.linked, hl] at h; simp [h]

/-! ## GETC and IN (R215, R216, R222) -/

/-- Everything GETC and IN can do: take a byte, fault at the end of input, or wait. -/
theorem State.readCharacter_cases (prompt : List Byte) (echo : Bool) (w : Word) :
    (∃ k ks, s.input.upcoming = k :: ks ∧
      s.readCharacter prompt echo w =
        (((s.trapLink.out prompt).setInput { s.input with keys := ks }).out
          (if echo then [k.byte] else [])).writeAndUpdate .r0 (zext k.byte)) ∨
    (s.input.upcoming = [] ∧ s.input.ended = true ∧
      s.readCharacter prompt echo w = (s.out prompt).raiseFault .inputExhausted w) ∨
    (s.input.upcoming = [] ∧ s.input.ended = false ∧
      s.readCharacter prompt echo w = s.stepNotTaken) := by
  obtain ⟨k, ks, hu, h⟩ | ⟨hu, he, h⟩ | ⟨hu, he, h⟩ := s.input.inByte_cases
  · exact .inl ⟨k, ks, hu, by simp only [State.readCharacter, h]⟩
  · exact .inr (.inl ⟨hu, he, by simp only [State.readCharacter, h]⟩)
  · exact .inr (.inr ⟨hu, he, by simp only [State.readCharacter, h]⟩)

/-! ## PUTS and PUTSP (R221, R223, R226) -/

/-- Everything PUTS and PUTSP can do: end where the scan ends, or, when no scan ever does, stay. -/
theorem State.writeString_cases (bytes : Word → List Byte) :
    (∃ t, scanString bytes (scanFuel s) (s.reg .r0) s.trapLink = some t ∧ s.writeString bytes = t) ∨
    ((∀ n, scanString bytes n (s.reg .r0) s.trapLink = none) ∧
      s.writeString bytes = s.stepNotTaken) := by
  have hf : scanFuel s.trapLink = scanFuel s := by unfold scanFuel; rw [State.trapLink_input]
  unfold State.writeString
  cases h : scanString bytes (scanFuel s) (s.reg .r0) s.trapLink with
  | some t => exact .inl ⟨t, rfl, rfl⟩
  | none => exact .inr ⟨scanString_none_forever bytes _ _ (by rw [hf]; exact h), rfl⟩

/-- A terminated string, none of whose cells nor its end is KBSR: the whole of what is written. -/
theorem State.writeString_string (bytes : Word → List Byte) (k : Nat)
    (hk : ∀ j, j ≤ k → s.reg .r0 + BitVec.ofNat 16 j ≠ s.params.kbsrAddr)
    (hn : ∀ j, j < k → s.cell (s.reg .r0 + BitVec.ofNat 16 j) ≠ 0)
    (hz : s.cell (s.reg .r0 + BitVec.ofNat 16 k) = 0) :
    s.writeString bytes =
      s.trapLink.out ((List.range k).flatMap fun j => bytes (s.cell (s.reg .r0 + BitVec.ofNat 16 j))) := by
  have hk16 : k < 65536 := by
    by_contra hge
    have := hk (s.params.kbsrAddr - s.reg .r0).toNat
      (by have := (s.params.kbsrAddr - s.reg .r0).isLt; omega)
    rw [BitVec.ofNat_toNat, BitVec.setWidth_eq, BitVec.add_comm, BitVec.sub_add_cancel] at this
    exact this rfl
  have h := scanString_string bytes k (scanFuel s) (s.reg .r0) s.trapLink
    (by unfold scanFuel; omega) (by simpa using hk) (by simpa using hn) (by simpa using hz)
  simp only [State.trapLink_cell] at h
  rw [State.writeString, h, State.endScan]

end Sys2Proof.Machine
end

