-- ==== Sys2Proof/Tests/Slice0.lean ====
section
/-! SUPPORT. Tests of the model on words and vectors of the spec (95_test_vectors.md, cited by their ids),
the smoke test of WellFormed, and for each obligation with hypotheses a witness that meets them. -/

namespace Sys2Proof.Tests

open Sys2Proof Sys2Proof.Machine

/-! ## Helpers -/

/-- The default parameters with a halt notice of two bytes, any text doing for a test (D18). -/
def par : Params := { Params.default with haltNotice := [0x48, 0x4E] }

/-- The keyboard moved to 0x3001 and 0x3002, as in the vectors V-IO. -/
def parIo : Params := { par with kbsrAddr := 0x3001, kbdrAddr := 0x3002 }

/-- An input stream of these bytes, each ready at its first check, then ended. -/
def bytesIn (bs : List Byte) : Input := ⟨bs.map (fun b => ⟨b, 0⟩), none, true⟩

/-- A state with a word at `pc`, every other field as at reset, the input ended. -/
def st (pc w : Word) : State := ((State.resetWith par (bytesIn [])).setPc pc).setCell pc w

/-- Whether the next state of a step passes a check. -/
def stepTo (s : State) (f : State → Bool) : Bool :=
  match step s with
  | .next t => f t
  | .fault _ => false
  | .refused _ => false

/-! ## WellFormed -/

/-- The one check of WellFormed: the unrecognised-TRAP row with a recognised code is no instruction. -/
theorem test_wellFormed_refuses_recognised_codes :
    (recognisedTrapCodes.all fun c => !(Instr.trapUnknown 0 c).wellFormed) = true := by decide

theorem test_wellFormed_accepts_codes_next_to_the_table :
    (Instr.trapUnknown 0 0x1F).wellFormed = true ∧ (Instr.trapUnknown 0xF 0x26).wellFormed = true := by
  decide

/-! ## Decoding: words written out from the format table of R95 and the opcode map of R96 -/

theorem test_decode_br : decode 0b0000_100_000000101 = .br true false false 5 := by decide
theorem test_decode_addReg : decode 0b0001_001_010_0_11_011 = .addReg .r1 .r2 3 .r3 := by decide
theorem test_decode_addImm : decode 0b0001_000_000_1_00001 = .addImm .r0 .r0 1 := by decide
theorem test_decode_ld : decode 0b0010_001_000000101 = .ld .r1 5 := by decide
theorem test_decode_st : decode 0b0011_001_000000100 = .st .r1 4 := by decide
theorem test_decode_jsr : decode 0b0100_1_10000000000 = .jsr (-1024) := by decide
theorem test_decode_jsrr : decode 0b0100_0_10_011_000001 = .jsrr 2 .r3 1 := by decide
theorem test_decode_andReg : decode 0b0101_011_001_0_00_010 = .andReg .r3 .r1 0 .r2 := by decide
theorem test_decode_andImm : decode 0b0101_001_001_1_10000 = .andImm .r1 .r1 (-16) := by decide
theorem test_decode_ldr : decode 0b0110_100_010_111101 = .ldr .r4 .r2 (-3) := by decide
theorem test_decode_str : decode 0b0111_011_100_100000 = .str .r3 .r4 (-32) := by decide
theorem test_decode_not : decode 0b1001_100_101_111111 = .not .r4 .r5 0x3F := by decide
theorem test_decode_ldi : decode 0b1010_011_000000010 = .ldi .r3 2 := by decide
theorem test_decode_sti : decode 0b1011_010_000000001 = .sti .r2 1 := by decide
theorem test_decode_jmp : decode 0b1100_111_010_111111 = .jmp 7 .r2 0x3F := by decide
theorem test_decode_lea : decode 0b1110_101_100000000 = .lea .r5 (-256) := by decide
theorem test_decode_trapGetc : decode 0b1111_0000_00100000 = .trapGetc 0 := by decide
theorem test_decode_trapOut : decode 0b1111_0001_00100001 = .trapOut 1 := by decide
theorem test_decode_trapPuts : decode 0b1111_0000_00100010 = .trapPuts 0 := by decide
theorem test_decode_trapIn : decode 0b1111_1111_00100011 = .trapIn 15 := by decide
theorem test_decode_trapPutsp : decode 0b1111_0000_00100100 = .trapPutsp 0 := by decide
theorem test_decode_trapHalt : decode 0b1111_0000_00100101 = .trapHalt 0 := by decide
theorem test_decode_trapUnknown : decode 0b1111_0000_00100110 = .trapUnknown 0 0x26 := by decide
theorem test_decode_rti : decode 0b1000_111111111111 = .rti 0xFFF := by decide
theorem test_decode_res : decode 0b1101_000100100011 = .res 0x123 := by decide

/-! ## Operate -/

/-- V-OP-2. -/
theorem test_addReg_signed_wrap :
    stepTo ((((st 0x3000 0x1283).setReg .r2 0x7FFF).setReg .r3 1))
      (fun t => t.reg .r1 == 0x8000 && t.cond == .neg && t.pc == 0x3001) = true := by decide

/-- V-OP-9, the ignored bits set. -/
theorem test_addReg_ignores_bits_4_3 :
    stepTo (((st 0x3000 0x129B).setReg .r2 5).setReg .r3 0xFFFE)
      (fun t => t.reg .r1 == 3 && t.cond == .pos && t.pc == 0x3001) = true := by decide

/-- V-OP-6. -/
theorem test_addImm_minus_one :
    stepTo (st 0x3000 0x14BF) (fun t => t.reg .r2 == 0xFFFF && t.cond == .neg && t.pc == 0x3001) = true := by
  decide

/-- V-OP-8. -/
theorem test_addImm_least_immediate :
    stepTo ((st 0x3000 0x1070).setReg .r1 0x10)
      (fun t => t.reg .r0 == 0 && t.cond == .zro && t.pc == 0x3001) = true := by decide

/-- V-OP-10. -/
theorem test_andReg :
    stepTo (((st 0x3000 0x5642).setReg .r1 0xF0F0).setReg .r2 0x8F00)
      (fun t => t.reg .r3 == 0x8000 && t.cond == .neg && t.pc == 0x3001) = true := by decide

/-- V-OP-13. -/
theorem test_andImm_sign_extends :
    stepTo ((st 0x3000 0x5270).setReg .r1 0x00FF)
      (fun t => t.reg .r1 == 0x00F0 && t.cond == .pos && t.pc == 0x3001) = true := by decide

/-- V-OP-14. -/
theorem test_not :
    stepTo ((st 0x3000 0x997F).setReg .r5 0x00FF)
      (fun t => t.reg .r4 == 0xFF00 && t.cond == .neg && t.pc == 0x3001) = true := by decide

/-- V-OP-16, the six low bits clear. -/
theorem test_not_ignores_low_bits :
    stepTo (st 0x3000 0x9240) (fun t => t.reg .r1 == 0xFFFF && t.cond == .neg) = true := by decide

/-! ## Data movement -/

/-- V-DM-3: at the last cell, PC wraps before the offset is added. -/
theorem test_ld_wraps :
    stepTo (st 0xFFFF 0x21FF)
      (fun t => t.reg .r0 == 0x21FF && t.cond == .pos && t.pc == 0x0000) = true := by decide

/-- V-DM-4: a load from KBSR_ADDR polls. -/
theorem test_ld_polls :
    stepTo { st 0x3000 0x2000 with params := parIo, input := bytesIn [0x6B] }
      (fun t => t.reg .r0 == 0x8000 && t.cond == .neg && t.cell 0x3001 == 0x8000 &&
        t.cell 0x3002 == 0x006B && t.input.keys == []) = true := by decide

/-- V-IO-2: a byte that is not ready yet stays in the input. -/
theorem test_poll_not_ready :
    stepTo { st 0x3000 0x2000 with params := parIo, input := ⟨[⟨0x61, 1⟩], none, true⟩ }
      (fun t => t.reg .r0 == 0 && t.cond == .zro && t.cell 0x3001 == 0 &&
        t.input.keys == [⟨0x61, 0⟩]) = true := by decide

/-- V-IO-3: reading KBDR_ADDR does not poll. -/
theorem test_data_cell_read_does_not_poll :
    stepTo { (st 0x3000 0x2001).setCell 0x3002 0x55 with params := parIo, input := bytesIn [0x61] }
      (fun t => t.reg .r0 == 0x55 && t.input == bytesIn [0x61]) = true := by decide

/-- V-DM-6: the pointer of LDI leads to KBSR_ADDR. -/
theorem test_ldi_polls :
    stepTo { (st 0x3000 0xA602).setCell 0x3003 0xFE00 with input := bytesIn [0x78] }
      (fun t => t.reg .r3 == 0x8000 && t.cond == .neg && t.cell 0xFE02 == 0x78) = true := by decide

/-- V-DM-7: with no input the status cell is cleared and the data cell stays. -/
theorem test_ldi_polls_without_input :
    stepTo (((st 0x3000 0xA602).setCell 0x3003 0xFE00).setCell 0xFE02 0x41)
      (fun t => t.reg .r3 == 0 && t.cond == .zro && t.cell 0xFE00 == 0 && t.cell 0xFE02 == 0x41) = true := by
  decide

/-- V-DM-9: base plus offset wraps. -/
theorem test_ldr_wraps :
    stepTo (((st 0x3000 0x605F).setReg .r1 0xFFF0).setCell 0x000F 0x1234)
      (fun t => t.reg .r0 == 0x1234 && t.cond == .pos && t.pc == 0x3001) = true := by decide

/-- V-DM-10: the base is also the destination. -/
theorem test_ldr_into_its_base :
    stepTo (((st 0x3000 0x6480).setReg .r2 0x5000).setCell 0x5000 0xABCD)
      (fun t => t.reg .r2 == 0xABCD && t.cond == .neg) = true := by decide

/-- V-DM-12. -/
theorem test_lea :
    stepTo (st 0x3000 0xEB00) (fun t => t.reg .r5 == 0x2F01 && t.cond == .pos && t.pc == 0x3001) = true := by
  decide

/-- V-DM-13. -/
theorem test_lea_without_flags :
    stepTo { st 0x3000 0xE003 with params := { par with leaSetsCc := false } }
      (fun t => t.reg .r0 == 0x3004 && t.cond == .zro) = true := by decide

/-- V-DM-16: a store into the next instruction. -/
theorem test_st_next_instruction :
    stepTo ((st 0x3000 0x3000).setReg .r0 0x1021)
      (fun t => t.cell 0x3001 == 0x1021 && t.cond == .zro && t.fetch.1 == 0x1021) = true := by decide

/-- V-IO-4: a store to KBSR_ADDR is a plain store. -/
theorem test_st_to_status_cell :
    stepTo { (st 0x3000 0x3000).setReg .r0 0x1234 with params := parIo, input := bytesIn [0x61] }
      (fun t => t.cell 0x3001 == 0x1234 && t.input == bytesIn [0x61]) = true := by decide

/-- V-DM-17. -/
theorem test_sti :
    stepTo (((st 0x3000 0xB401).setReg .r2 0x42).setCell 0x3002 0x5000)
      (fun t => t.cell 0x5000 == 0x42 && t.cell 0x3002 == 0x5000 && t.cond == .zro) = true := by decide

/-- V-DM-19: base plus offset below 0. -/
theorem test_str_wraps :
    stepTo (((st 0x3000 0x7720).setReg .r3 0x1111).setReg .r4 0x0010)
      (fun t => t.cell 0xFFF0 == 0x1111 && t.cond == .zro && t.pc == 0x3001) = true := by decide

/-! ## Control -/

/-- V-CT-4. -/
theorem test_br_taken_backwards :
    stepTo ((st 0x3000 0x03FD).setCond .pos) (fun t => t.pc == 0x2FFE && t.cond == .pos) = true := by decide

/-- V-CT-7: nzp = 000. -/
theorem test_br_empty_mask :
    stepTo ((st 0x3000 0x01FF).setCond .pos) (fun t => t.pc == 0x3001 && t.cond == .pos) = true := by decide

/-- V-CT-11. -/
theorem test_ret :
    stepTo (((st 0x3000 0xC1C0).setReg .r7 0x3001).setCond .neg)
      (fun t => t.pc == 0x3001 && t.cond == .neg) = true := by decide

/-- V-CT-12, every ignored bit set. -/
theorem test_jmp_ignores_bits :
    stepTo ((st 0x3000 0xCEBF).setReg .r2 0x1234) (fun t => t.pc == 0x1234) = true := by decide

/-- V-CT-13. -/
theorem test_jsr_keeps_cond :
    stepTo ((st 0x3000 0x4803).setCond .pos)
      (fun t => t.pc == 0x3004 && t.reg .r7 == 0x3001 && t.cond == .pos) = true := by decide

/-- V-CT-15. -/
theorem test_jsr_wraps :
    stepTo (st 0x0100 0x4C00) (fun t => t.pc == 0xFD01 && t.reg .r7 == 0x0101) = true := by decide

/-- V-CT-17. -/
theorem test_jsrr_r7_link_first :
    stepTo ((st 0x3000 0x41C0).setReg .r7 0x5000)
      (fun t => t.pc == 0x3001 && t.reg .r7 == 0x3001) = true := by decide

/-- V-CT-18. -/
theorem test_jsrr_r7_base_first :
    stepTo { (st 0x3000 0x41C0).setReg .r7 0x5000 with params := { par with jsrrLinkFirst := false } }
      (fun t => t.pc == 0x5000 && t.reg .r7 == 0x3001) = true := by decide

/-! ## TRAP -/

/-- V-TR-3: a byte is zero-extended. -/
theorem test_getc_zero_extends :
    stepTo { st 0x3000 0xF020 with input := bytesIn [0xFF] }
      (fun t => t.reg .r0 == 0x00FF && t.cond == .pos && t.output == [] && t.pc == 0x3001) = true := by decide

/-- V-TR-4, with TRAP_LINKS_R7 and R7 set: the end of input leaves every register (R242). -/
theorem test_getc_input_exhausted :
    stepTo { (((st 0x3000 0xF020).setReg .r0 0x1234).setReg .r7 0x1111).setCond .neg with
        params := { par with trapLinksR7 := true } }
      (fun t => t.reg .r0 == 0x1234 && t.reg .r7 == 0x1111 && t.cond == .neg && t.pc == 0x3001 &&
        t.status == .faulted .inputExhausted 0xF020) = true := by decide

/-- V-TR-5. -/
theorem test_out_low_byte :
    stepTo ((st 0x3000 0xF021).setReg .r0 0x1241) (fun t => t.output == [0x41] && t.pc == 0x3001) = true := by
  decide

/-- V-TR-16, an ignored bit set. -/
theorem test_out_ignores_bits :
    stepTo ((st 0x3000 0xF121).setReg .r0 0x58) (fun t => t.output == [0x58]) = true := by decide

/-- V-TR-7: cells above 0x00FF. -/
theorem test_puts_low_bytes :
    stepTo ((((st 0x3000 0xF022).setReg .r0 0x4000).setCell 0x4000 0x0141).setCell 0x4001 0x0042)
      (fun t => t.output == [0x41, 0x42] && t.reg .r0 == 0x4000 && t.pc == 0x3001) = true := by decide

/-- V-TR-9: a string that wraps. -/
theorem test_puts_wraps :
    stepTo ((((st 0x3000 0xF022).setReg .r0 0xFFFF).setCell 0x0000 0x42).setCell 0xFFFF 0x41)
      (fun t => t.output == [0x41, 0x42]) = true := by decide

/-- V-TR-10. -/
theorem test_in_echoes :
    stepTo { st 0x3000 0xF023 with input := bytesIn [0x7A] }
      (fun t => t.reg .r0 == 0x7A && t.cond == .pos && t.output == [0x7A]) = true := by decide

/-- R222 with a prompt of two bytes: it is written before the echo. -/
theorem test_in_prompts :
    stepTo { st 0x3000 0xF023 with input := bytesIn [0x7A], params := { par with inPrompt := [0x3E, 0x20] } }
      (fun t => t.output == [0x3E, 0x20, 0x7A]) = true := by decide

/-- V-TR-12: an odd number of bytes. -/
theorem test_putsp_odd_length :
    stepTo ((((st 0x3000 0xF024).setReg .r0 0x4000).setCell 0x4000 0x6948).setCell 0x4001 0x0021)
      (fun t => t.output == [0x48, 0x69, 0x21]) = true := by decide

/-- V-TR-13: a zero low byte. -/
theorem test_putsp_zero_low_byte :
    stepTo (((st 0x3000 0xF024).setReg .r0 0x4000).setCell 0x4000 0x4100)
      (fun t => t.output == [0x00, 0x41]) = true := by decide

/-- V-TR-14. -/
theorem test_halt :
    stepTo ((st 0x3000 0xF025).setReg .r7 0x1111)
      (fun t => t.status == .halted && t.output == [0x48, 0x4E] && t.reg .r7 == 0x1111 &&
        t.pc == 0x3001) = true := by decide

/-- V-TR-15. -/
theorem test_halt_links :
    stepTo { (st 0x3000 0xF025).setReg .r7 0x1111 with params := { par with trapLinksR7 := true } }
      (fun t => t.status == .halted && t.reg .r7 == 0x3001) = true := by decide

/-- V-TR-17: no link before the fault. -/
theorem test_unknown_trap_code_does_not_link :
    stepTo { (st 0x3000 0xF026).setReg .r7 0x1111 with params := { par with trapLinksR7 := true } }
      (fun t => t.status == .faulted .unknownTrapCode 0xF026 && t.reg .r7 == 0x1111 &&
        t.pc == 0x3001) = true := by decide

/-- V-TR-19. -/
theorem test_unknown_trap_code_ff :
    stepTo (st 0x3000 0xF0FF) (fun t => t.status == .faulted .unknownTrapCode 0xF0FF) = true := by decide

/-- V-DC-3. -/
theorem test_rti_faults :
    stepTo (st 0x3000 0x8FFF)
      (fun t => t.status == .faulted .reservedOpcode 0x8FFF && t.pc == 0x3001) = true := by decide

/-- V-DC-2. -/
theorem test_res_faults :
    stepTo ((st 0x3000 0xD123).setReg .r1 5)
      (fun t => t.status == .faulted .reservedOpcode 0xD123 && t.reg .r1 == 5) = true := by decide

/-- V-FE-1: a fetch from KBSR_ADDR polls. -/
theorem test_fetch_polls :
    stepTo { st 0xFE00 0x1234 with input := bytesIn [0x78] }
      (fun t => t.status == .faulted .reservedOpcode 0x8000 && t.pc == 0xFE01 &&
        t.cell 0xFE02 == 0x78) = true := by decide

/-! ## The loader (L1-7) -/

/-- The cells of a loaded image, or `none` for a load error. -/
def loaded (bs : List Byte) : Option Memory :=
  match loadImage bs [] with
  | .ok m => some m
  | .error _ => none

theorem test_load_image :
    loaded [0x40, 0x00, 0xAB, 0xCD, 0x00, 0x01] = some [(0x4000, 0xABCD), (0x4001, 0x0001)] := by decide

theorem test_load_truncated :
    loaded [0x40, 0x00, 0xAB, 0xCD, 0x00] = some [(0x4000, 0xABCD)] := by decide

theorem test_load_overflow : loaded [0xFF, 0xFF, 0x12, 0x34, 0x56, 0x78] = none := by decide

/-! ## Sign extension (L1-5) -/

theorem test_sext : sext 0b11111 5 = 0xFFFF ∧ sext 0b01111 5 = 0x000F ∧ sext 0x100 9 = 0xFF00 ∧
    sext 0x400 11 = 0xFC00 ∧ sext 0x20 6 = 0xFFE0 := by decide

/-! ## Witnesses: for each obligation with hypotheses, a state and operands that meet them -/

theorem witness_DecodeOfEncodeIsIdentity :
    (Instr.addReg .r7 .r0 3 .r1).wellFormed = true ∧ (Instr.trapUnknown 0xF 0xFF).wellFormed = true := by
  decide

theorem witness_DecodeFollowsOpcodeTable :
    (⟨"ADD", 0xF020, 0x1020⟩ : TableRow) ∈ opcodeTable.take 22 ∧
      (⟨"ADD", 0xF020, 0x1020⟩ : TableRow).covers 0x1FFF = true := by decide

theorem witness_IgnoredBitsChangeNothing :
    (opcode 0x129B = .add ∧ (0x129B : Word).getLsbD 5 = false) ∧
    (opcode 0x565A = .and ∧ (0x565A : Word).getLsbD 5 = false) ∧ opcode 0x9240 = .not ∧
    opcode 0xCEBF = .jmp ∧ (opcode 0x46FF = .jsr ∧ (0x46FF : Word).getLsbD 11 = false) ∧
    (opcode 0xFF20 = .trap ∧ (0xFF20 : Word).extractLsb' 0 8 ∈ recognisedTrapCodes ∧
      ((bytesIn [0x41]).upcoming = [] → (bytesIn [0x41]).ended = false)) := by decide

/-- The least and the greatest n, and the clause for a clear sign bit. -/
theorem witness_SignExtensionLaws :
    (1 ≤ 1 ∧ 1 < 16) ∧ (1 ≤ 15 ∧ 15 < 16) ∧ (0x3FFF : Word).getLsbD (15 - 1) = false ∧
      (0xFFFE : Word).getLsbD (1 - 1) = false := by decide

theorem witness_CondFollowsWrittenValue :
    (0x8000 : Word).getLsbD 15 = true ∧ ((0x7FFF : Word).getLsbD 15 = false ∧ (0x7FFF : Word) ≠ 0) := by
  decide

theorem witness_MemReadPollsOnlyAtStatusAddress :
    (0xFE00 : Word) = (st 0x3000 0).params.kbsrAddr ∧ (0xFE01 : Word) ≠ (st 0x3000 0).params.kbsrAddr := by
  decide

/-- A byte ready, a byte not ready, an endless byte, and no byte. -/
theorem witness_StatusReadPollsKeyboard :
    (st 0x3000 0).params.kbdrAddr ≠ (st 0x3000 0).params.kbsrAddr ∧
    (bytesIn [0x78]).upcoming = ⟨0x78, 0⟩ :: [] ∧
    (⟨[⟨0x78, 1⟩], none, true⟩ : Input).upcoming = ⟨0x78, 0 + 1⟩ :: [] ∧
    (⟨[], some ⟨0x78, 0⟩, false⟩ : Input).upcoming = ⟨0x78, 0⟩ :: [] ∧ Input.silent.upcoming = [] := by
  decide

/-- Each of the three stores. -/
theorem witness_StoresAreSeenByFetch :
    let s := (st 0x3000 0).setReg .r4 0x10
    (storeAddress s (.st .r0 0) = some 0x3000 ∧ ∃ t, exec (.st .r0 0) s = .next t) ∧
    (storeAddress s (.sti .r0 5) = some 0x0000 ∧ ∃ t, exec (.sti .r0 5) s = .next t) ∧
    (storeAddress s (.str .r0 .r4 (-32)) = some 0xFFF0 ∧ ∃ t, exec (.str .r0 .r4 (-32)) s = .next t) ∧
    (0x3000 : Word) ≠ s.params.kbsrAddr ∧ (0x0000 : Word) ≠ s.params.kbsrAddr ∧
    (0xFFF0 : Word) ≠ s.params.kbsrAddr :=
  ⟨⟨by decide, by simp [exec, execSt]⟩, ⟨by decide, by simp [exec, execSti]⟩,
    ⟨by decide, by simp [exec, execStr]⟩, by decide, by decide, by decide⟩

theorem witness_StepRunsDecodedInstruction :
    ((st 0x3000 0).setStatus .halted).status ≠ .running ∧ (st 0xFFFF 0x8000).status = .running ∧ opcode ((st 0xFFFF 0x8000).memRead 0xFFFF).1 = .rti ∧
    opcode ((st 0x3000 0xDFFF).memRead 0x3000).1 = .res ∧
    ((Instr.addImm .r0 .r0 1).wellFormed = true ∧
      (st 0x3000 0x1021).pc ≠ (st 0x3000 0x1021).params.kbsrAddr ∧
      (st 0x3000 0x1021).cell (st 0x3000 0x1021).pc = encode (.addImm .r0 .r0 1)) := by decide

theorem witness_HaltedAndFaultedAreFinal :
    ((st 0x3000 0).setStatus .halted).status ≠ .running ∧
    ((st 0x3000 0).setStatus (.faulted .inputExhausted 0xF020)).status ≠ .running := by decide

/-- Every way a run can end: HALT, the two reserved opcodes, an unrecognised trap code, the end of input.
It serves the obligations EndedRunsStay and OnlyHaltAndFaultsEndARun. -/
theorem witness_runs_end :
    ([0xF025, 0xFF25, 0x8000, 0xD123, 0xF01F, 0xF026, 0xF020, (0xF023 : Word)].all fun w =>
      (st 0x3000 w).status == .running && stepTo (st 0x3000 w) (fun t => t.status != .running)) = true := by
  decide

theorem witness_FaultsArePrecise :
    ([(.reservedOpcode, 0x8000), (.reservedOpcode, 0xD123), (.unknownTrapCode, 0xF026),
      (.inputExhausted, 0xF020), (.inputExhausted, (0xF023 : Word))].all fun (r, w) =>
      stepTo (st 0x3000 w) (fun t => t.status == .faulted r w)) = true := by decide

/-- A state that meets the invariant with cells listed, the first and the last among them. -/
theorem witness_EveryStepKeepsTheInvariant : (((st 0x3000 0x1021).setCell 0 1).setCell 0xFFFF 2).Inv := by
  constructor <;> decide

/-- A step that answers a next state and takes a byte, for the obligations OutputIsAppendOnly and
InputIsTakenInOrder. -/
theorem witness_steps :
    stepTo { st 0x3000 0xF023 with input := bytesIn [0x7A, 0x7B] }
      (fun t => t.output == [0x7A] && t.input == bytesIn [0x7B]) = true := by decide

/-- An instruction that sets COND, one that does not, and GETC with no byte left. -/
theorem witness_CondChangesOnlyWithAWrite :
    ((Instr.not .r1 .r2 0).condFrom par = some .r1 ∧ ∃ t, exec (.not .r1 .r2 0) (st 0x3000 0) = .next t) ∧
    ((Instr.jsr 5).condFrom par = none ∧ ∃ t, exec (.jsr 5) (st 0x3000 0) = .next t) ∧
    ((Instr.trapGetc 0).condFrom par = some .r0 ∧ (st 0x3000 0).input.upcoming = [] ∧
      ∃ t, exec (.trapGetc 0) (st 0x3000 0) = .next t) :=
  ⟨⟨by decide, _, rfl⟩, ⟨by decide, _, rfl⟩, by decide, by decide, _, rfl⟩

theorem witness_RegistersKeepTheirValues : ∃ t, exec (.ld .r1 5) (st 0x3000 0) = .next t := ⟨_, rfl⟩

/-- An instruction that completes, and a GETC that waits. -/
theorem witness_PcIsWrittenByTransfersOnly :
    ((Instr.ld .r1 5).isTransfer = false ∧ ∃ t, exec (.ld .r1 5) (st 0x3000 0) = .next t) ∧
    (Instr.trapGetc 0).isTransfer = false ∧
    exec (.trapGetc 0) ((st 0x3000 0).setInput Input.silent) =
      .next ((st 0x3000 0).setInput Input.silent).stepNotTaken :=
  ⟨⟨rfl, _, rfl⟩, rfl, rfl⟩

theorem witness_MemoryKeepsItsContent :
    (∃ t, exec (.st .r1 5) (st 0x3000 0) = .next t) ∧
    storeAddress (st 0x3000 0) (.st .r1 5) ≠ some 0x3006 ∧ (0x3006 : Word) ≠ par.kbsrAddr ∧
    (0x3006 : Word) ≠ par.kbdrAddr := ⟨⟨_, rfl⟩, by decide, by decide, by decide⟩

/-- LD, LDR and both accesses of LDI away from KBSR_ADDR. -/
theorem witness_loads_away_from_status_cell :
    let s := (st 0x3000 0).setCell 0x3005 0x4000
    s.pc + (5 : BitVec 9).signExtend 16 ≠ s.params.kbsrAddr ∧
    s.cell (s.pc + (5 : BitVec 9).signExtend 16) ≠ s.params.kbsrAddr ∧
    s.reg .r1 + (-32 : BitVec 6).signExtend 16 ≠ s.params.kbsrAddr := by decide

/-- A mask that names COND, one that does not, and the empty mask. -/
theorem witness_BrBranchesOnTheMask :
    ((true = true ∧ (st 0 0).cond = .zro)) ∧
    ¬ ((true = true ∧ (st 0 0).cond = .neg) ∨ (false = true ∧ (st 0 0).cond = .zro) ∨
      (true = true ∧ (st 0 0).cond = .pos)) ∧
    ¬ ((false = true ∧ (st 0 0).cond = .neg) ∨ (false = true ∧ (st 0 0).cond = .zro) ∨
      (false = true ∧ (st 0 0).cond = .pos)) := by decide

/-- For GETC and IN: the byte 0, a byte not yet ready, and an endless byte. -/
theorem witness_GetcTakesTheNextByte :
    (bytesIn [0x00]).upcoming = ⟨0x00, 0⟩ :: [] ∧
    (⟨[⟨0xFF, 3⟩], none, false⟩ : Input).upcoming = ⟨0xFF, 3⟩ :: [] ∧
    (⟨[], some ⟨0x41, 0⟩, false⟩ : Input).upcoming = ⟨0x41, 0⟩ :: [] := by decide

/-- A state with the string "AB" at the last cell, wrapping to cell 0. -/
def wrapped : State := (((st 0x3000 0).setReg .r0 0xFFFF).setCell 0xFFFF 0x41).setCell 0x0000 0x42

/-- For PUTS and PUTSP: a string of two cells, and the empty one. -/
theorem witness_PutsWritesOneBytePerCell :
    ((∀ j, j ≤ 2 → wrapped.reg .r0 + BitVec.ofNat 16 j ≠ wrapped.params.kbsrAddr) ∧
      (∀ j, j < 2 → wrapped.cell (wrapped.reg .r0 + BitVec.ofNat 16 j) ≠ 0) ∧
      wrapped.cell (wrapped.reg .r0 + BitVec.ofNat 16 2) = 0) ∧
    ((∀ j, j ≤ 0 → (st 0x3000 0).reg .r0 + BitVec.ofNat 16 j ≠ (st 0x3000 0).params.kbsrAddr) ∧
      (∀ j, j < 0 → (st 0x3000 0).cell ((st 0x3000 0).reg .r0 + BitVec.ofNat 16 j) ≠ 0) ∧
      (st 0x3000 0).cell ((st 0x3000 0).reg .r0 + BitVec.ofNat 16 0) = 0) := by decide

theorem witness_StringOutputEndsWithFiniteInput : (st 0x3000 0).input.endless = none := rfl

theorem witness_InputExhaustedFaults :
    (st 0x3000 0).input.upcoming = [] ∧ (st 0x3000 0).input.ended = true := by decide

/-- The first and the last codes, and the codes next to the table. -/
theorem witness_UnknownTrapCodeFaults :
    ∀ code ∈ [0x00, 0x1F, 0x26, (0xFF : BitVec 8)],
      code ∉ [0x20#8, 0x21#8, 0x22#8, 0x23#8, 0x24#8, 0x25#8] := by decide

theorem witness_HostChangesInputOnly :
    (st 0x3000 0).input.ended = true ∧ State.reset.input.ended = false := by decide

/-- Images that end at the last cell, with a trailing byte and without, and the image shorter than a
word. -/
theorem witness_LoadedImageReadsBack :
    ([] : List Byte).length ≤ 1 ∧ ([0x55] : List Byte).length ≤ 1 ∧
    (0xFFFE : Word).toNat + ([0x1234, 0x5678] : List Word).length ≤ 65536 ∧
    0 < ([0x1234, 0x5678] : List Word).length ∧ ([0x30] : List Byte).length < 2 := by decide

theorem witness_LoadPastTheEndFails :
    65536 < (0xFFFF : Word).toNat + ([0x1234, 0x5678] : List Word).length := by decide

theorem witness_PlacedWordIsTheOneThatRuns : State.reset.pc ≠ State.reset.params.kbsrAddr := by decide

/-! ### A string that never ends: every cell non-zero, and a byte always ready -/

/-- Every cell holds a non-zero value and an endless non-zero byte is always ready. -/
def NeverZero (s : State) : Prop :=
  (∀ a, s.cell a ≠ 0) ∧ ∃ b : Byte, b ≠ 0 ∧ s.input = ⟨[], some ⟨b, 0⟩, false⟩

theorem neverZero_memRead (s : State) (h : NeverZero s) (a : Word) :
    (s.memRead a).1 ≠ 0 ∧ NeverZero (s.memRead a).2 := by
  obtain ⟨hc, b, hb, hi⟩ := h
  have hz : zext b ≠ 0 := by
    intro h0
    apply hb
    have := congrArg BitVec.toNat h0
    simp only [zext, BitVec.toNat_setWidth, BitVec.ofNat_eq_ofNat, BitVec.toNat_ofNat] at this
    apply BitVec.eq_of_toNat_eq
    have hlt := b.isLt
    simp only [BitVec.ofNat_eq_ofNat, BitVec.toNat_ofNat]
    omega
  have hp : NeverZero s.keyboardPoll := by
    have hpoll : s.input.poll = (some b, s.input) := by rw [hi]; rfl
    refine ⟨fun c => ?_, b, hb, ?_⟩
    · simp only [State.keyboardPoll, hpoll, State.cell_setCell]
      split
      · exact hz
      · split
        · decide
        · exact hc c
    · simp only [State.keyboardPoll, hpoll]
      exact hi
  unfold State.memRead
  split
  · exact ⟨hp.1 a, hp⟩
  · exact ⟨hc a, hc, b, hb, hi⟩

theorem neverZero_scan (bytes : Word → List Byte) (n : Nat) :
    ∀ (a : Word) (s : State), NeverZero s → scanString bytes n a s = none := by
  induction n with
  | zero => intro a s _; rfl
  | succ n ih =>
    intro a s h
    obtain ⟨h1, h2⟩ := neverZero_memRead s h a
    unfold scanString
    rw [if_neg h1]
    exact ih _ _ h2

/-- A memory with one value in each of `n` cells from cell `lo` on. -/
def filled (w : Word) (lo n : Nat) : Memory := (List.range' lo n).map (fun a => (a, w))

theorem read_filled (w : Word) (n : Nat) : ∀ (lo a : Nat), lo ≤ a → a < lo + n →
    (filled w lo n).read a = w := by
  induction n with
  | zero => intro lo a h1 h2; omega
  | succ n ih =>
    intro lo a h1 h2
    simp only [filled, List.range'_succ, List.map_cons, Memory.read]
    split
    · rfl
    · exact ih (lo + 1) a (by omega) (by omega)

/-- A running machine whose every cell holds `w`, with an endless byte always ready. -/
def endless (w : Word) : State :=
  { st 0x3000 0 with mem := filled w 0 65536, input := ⟨[], some ⟨0x41, 0⟩, false⟩ }

theorem endless_cell (w a : Word) : (endless w).cell a = w :=
  read_filled w 65536 0 a.toNat (Nat.zero_le _) (by have := a.isLt; omega)

theorem endless_neverZero (w : Word) (hw : w ≠ 0) : NeverZero (endless w) :=
  ⟨fun a => by rw [endless_cell]; exact hw, 0x41, by decide, rfl⟩

/-- For the two clauses of StringOutputIsTheWholeLoop: a scan that ends at once, and one that never does. -/
theorem witness_StringOutputIsTheWholeLoop :
    (∃ n t, scanString putsBytes n ((st 0x3000 0).reg .r0) (st 0x3000 0).trapLink = some t) ∧
    (∀ n, scanString putsBytes n ((endless 0xF022).reg .r0) (endless 0xF022).trapLink = none) ∧
    (∀ n, scanString putspBytes n ((endless 0xF024).reg .r0) (endless 0xF024).trapLink = none) :=
  ⟨⟨1, _, rfl⟩, fun n => neverZero_scan _ n _ _ (endless_neverZero 0xF022 (by decide)),
    fun n => neverZero_scan _ n _ _ (endless_neverZero 0xF024 (by decide))⟩

theorem neverZero_fetch_link (s : State) (h : NeverZero s) : NeverZero s.fetch.2.trapLink := by
  have h2 := (neverZero_memRead s h s.pc).2
  unfold State.trapLink
  split <;> exact h2

theorem endless_fetch (w : Word) : (endless w).memRead 0x3000 = (w, endless w) := by
  unfold State.memRead
  have h : ¬ (0x3000 : Word) = (endless w).params.kbsrAddr := show ¬ (0x3000 : Word) = par.kbsrAddr by decide
  rw [if_neg h, endless_cell]

/-- For each case of StepsWithoutOutcomeStay: GETC that waits, PUTS and PUTSP that never end. -/
theorem witness_StepsWithoutOutcomeStay :
    (let s := (st 0x3000 0xF020).setInput Input.silent
     s.status = .running ∧ s.params.kbdrAddr ≠ s.params.kbsrAddr ∧
       decode (s.memRead s.pc).1 = .trapGetc 0 ∧ s.input.upcoming = [] ∧ s.input.ended = false) ∧
    ((endless 0xF022).status = .running ∧
      decode ((endless 0xF022).memRead (endless 0xF022).pc).1 = .trapPuts 0 ∧
      ∀ n, scanString putsBytes n ((endless 0xF022).reg .r0) (endless 0xF022).fetch.2.trapLink = none) ∧
    ((endless 0xF024).status = .running ∧
      decode ((endless 0xF024).memRead (endless 0xF024).pc).1 = .trapPutsp 0 ∧
      ∀ n, scanString putspBytes n ((endless 0xF024).reg .r0) (endless 0xF024).fetch.2.trapLink = none) := by
  refine ⟨by decide, ⟨rfl, ?_, fun n => neverZero_scan _ n _ _ ?_⟩,
    ⟨rfl, ?_, fun n => neverZero_scan _ n _ _ ?_⟩⟩
  · rw [show (endless 0xF022).pc = 0x3000 from rfl, endless_fetch]; decide
  · exact neverZero_fetch_link _ (endless_neverZero 0xF022 (by decide))
  · rw [show (endless 0xF024).pc = 0x3000 from rfl, endless_fetch]; decide
  · exact neverZero_fetch_link _ (endless_neverZero 0xF024 (by decide))

end Sys2Proof.Tests
end

section
/-! PROOFS. Sign extension of the low n bits of a word (R21). -/

namespace Sys2Proof.Machine

/-- The sign of the field that `sext v n` widens is bit n-1 of `v`. -/
theorem msb_setWidth_eq_getLsbD (v : Word) {n : Nat} (hn : 1 ≤ n) :
    (v.setWidth n).msb = v.getLsbD (n - 1) := by
  rw [BitVec.msb_eq_getLsbD_last, BitVec.getLsbD_setWidth, decide_eq_true (by omega), Bool.true_and]

theorem getLsbD_sext_below (v : Word) {n k : Nat} (hk : k < n) (hk16 : k < 16) :
    (sext v n).getLsbD k = v.getLsbD k := by
  rw [sext, getLsbD_sextField _ _ hk16, if_pos hk, BitVec.getLsbD_setWidth, decide_eq_true hk,
    Bool.true_and]

theorem getLsbD_sext_from (v : Word) {n k : Nat} (hn : 1 ≤ n) (hk : n ≤ k) (hk16 : k < 16) :
    (sext v n).getLsbD k = v.getLsbD (n - 1) := by
  rw [sext, getLsbD_sextField _ _ hk16, if_neg (by omega), msb_setWidth_eq_getLsbD v hn]

/-- The low n bits survive sign extension from n bits. -/
theorem setWidth_sext (v : Word) {n : Nat} (hn : n ≤ 16) : (sext v n).setWidth n = v.setWidth n := by
  refine BitVec.eq_of_getLsbD_eq fun k hk => ?_
  rw [BitVec.getLsbD_setWidth, BitVec.getLsbD_setWidth, getLsbD_sext_below v hk (by omega)]

/-- `sext` reads only the low n bits of its argument, and those it leaves as they are. -/
theorem sext_sext (v : Word) {n : Nat} (hn : n ≤ 16) : sext (sext v n) n = sext v n :=
  congrArg sextField (setWidth_sext v hn)

/-- A field with a clear sign bit is zero-extended. -/
theorem toNat_sextField_of_msb_false {n : Nat} {f : BitVec n} (hn : n ≤ 16) (h : f.msb = false) :
    (sextField f).toNat = f.toNat := by
  rw [sextField, BitVec.signExtend_eq_setWidth_of_msb_false h, BitVec.toNat_setWidth_of_le hn]

theorem toNat_sext_of_sign_clear (v : Word) {n : Nat} (hn : 1 ≤ n) (hn16 : n ≤ 16)
    (h : v.getLsbD (n - 1) = false) : (sext v n).toNat = v.toNat % 2 ^ n := by
  have hmsb : (v.setWidth n).msb = false := (msb_setWidth_eq_getLsbD v hn).trans h
  rw [sext, toNat_sextField_of_msb_false hn16 hmsb, BitVec.toNat_setWidth]

/-- Settles O7: the bits of `sext v n` give the first two clauses, the low n bits that survive give
idempotence, and a clear sign bit makes the widening a zero extension. -/
theorem signExtensionLaws : Obligations.SignExtensionLaws := by
  intro v n hn hn16
  exact ⟨fun k hk => getLsbD_sext_below v hk (by omega),
    fun k hk hk16 => getLsbD_sext_from v hn hk hk16,
    sext_sext v hn16.le,
    toNat_sext_of_sign_clear v hn hn16.le⟩

end Sys2Proof.Machine
end

section
/-! PROOFS. The programmer-visible state: COND as a value gives it (R37), the eight registers (R31) and the
run status (R48). -/

namespace Sys2Proof

/-- A register stands at its own number in the list of R31. -/
theorem Reg.getElem?_bits (r : Reg) :
    ([.r0, .r1, .r2, .r3, .r4, .r5, .r6, .r7] : List Reg)[r.bits.toNat]? = some r := by
  cases r <;> rfl

end Sys2Proof

namespace Sys2Proof.Machine

/-! ### COND -/

@[simp] theorem condOf_zero : condOf 0 = .zro := rfl

theorem condOf_of_sign_set {v : Word} (h : v.getLsbD 15 = true) : condOf v = .neg := by
  obtain ⟨rfl, -⟩ | ⟨-, -, hneg⟩ | ⟨-, hclear, -⟩ := condOf_cases v
  · exact absurd h (by decide)
  · exact hneg
  · exact absurd (h.symm.trans hclear) (by decide)

theorem condOf_of_sign_clear {v : Word} (h : v.getLsbD 15 = false) (hv : v ≠ 0) : condOf v = .pos := by
  obtain ⟨hzero, -⟩ | ⟨-, hset, -⟩ | ⟨-, -, hpos⟩ := condOf_cases v
  · exact absurd hzero hv
  · exact absurd (hset.symm.trans h) (by decide)
  · exact hpos

/-- `update_flags` reads the register only, so a second one finds COND as it would write it. -/
@[simp] theorem State.updateFlags_updateFlags (s : State) (r : Reg) :
    (s.updateFlags r).updateFlags r = s.updateFlags r := rfl

/-- Settles O8: the value decides COND by `condOf_cases`, and `write_and_update` ends in an `update_flags`,
which is idempotent. -/
theorem condFollowsWrittenValue : Obligations.CondFollowsWrittenValue :=
  ⟨fun _ => ⟨fun hv => hv ▸ condOf_zero, condOf_of_sign_set, condOf_of_sign_clear⟩,
    fun _ _ => rfl,
    fun s r v => ⟨rfl, s.reg_writeAndUpdate_same r v, s.cond_writeAndUpdate r v,
      (s.setReg r v).updateFlags_updateFlags r⟩⟩

/-! ### The general registers -/

theorem sameRegsBut_setReg (s : State) (r : Reg) (v : Word) : SameRegsBut [r] s (s.setReg r v) := by
  intro q hq
  rw [State.reg_setReg, if_neg (List.ne_of_not_mem_cons hq)]

/-- Settles O9: a field names the register that stands at its number, and a register write is seen by that
register alone. -/
theorem registersAreIndependent : Obligations.RegistersAreIndependent := by
  refine ⟨fun b => ⟨Reg.bits_ofBits b, ?_⟩, fun s r v => ?_⟩
  · have hlist := Reg.getElem?_bits (Reg.ofBits b)
    rw [Reg.bits_ofBits] at hlist
    exact hlist.symm
  · exact ⟨s.reg_setReg_same r v, sameRegsBut_setReg s r v, s.setReg_pc r v, s.setReg_cond r v,
      fun a _ => s.cell_setReg r v a⟩

/-! ### The run status -/

/-- Each status but Running makes the step answer its own state (R48). -/
theorem step_of_status_ne_running {s : State} (h : s.status ≠ .running) : step s = .next s := by
  unfold step
  cases hs : s.status with
  | running => exact absurd hs h
  | halted => rfl
  | faulted f w => rfl

/-- Settles O16: Running is the status of reset, and a step from any other status answers the same state. -/
theorem haltedAndFaultedAreFinal : Obligations.HaltedAndFaultedAreFinal :=
  ⟨rfl, fun _ => step_of_status_ne_running⟩

end Sys2Proof.Machine
end

section
/-! PROOFS. Memory access: the read with its poll (R60) and the plain store (R64). -/

namespace Sys2Proof.Machine

/-! ### `MemRead` -/

theorem State.memRead_of_eq (s : State) {a : Word} (h : a = s.params.kbsrAddr) :
    s.memRead a = (s.keyboardPoll.cell a, s.keyboardPoll) := by
  obtain ⟨hne, -⟩ | ⟨-, hread⟩ := s.memRead_cases a
  · exact absurd h hne
  · exact hread

/-- Settles O10: the two branches of `MemRead`. -/
theorem memReadPollsOnlyAtStatusAddress : Obligations.MemReadPollsOnlyAtStatusAddress :=
  fun s a => ⟨s.memRead_of_eq, s.memRead_of_ne a⟩

/-! ### `MemWrite` -/

theorem sameCellsBut_memWrite (s : State) (a v : Word) : SameCellsBut [a] s (s.memWrite a v) := by
  intro b hb
  rw [State.cell_memWrite, if_neg (List.ne_of_not_mem_cons hb)]

/-- The poll writes the status cell whether it finds a byte or not, and reads no cell: what stood in the
status cell before it is in no cell after it. -/
theorem State.cell_keyboardPoll_memWrite_kbsr (s : State) (v b : Word) :
    (s.memWrite s.params.kbsrAddr v).keyboardPoll.cell b = s.keyboardPoll.cell b := by
  unfold State.keyboardPoll
  rw [State.memWrite_input, State.memWrite_params]
  by_cases hb : b = s.params.kbsrAddr
  · split <;> simp [State.cell_setCell, hb]
  · split <;> simp [State.cell_setCell, State.cell_memWrite, hb]

/-- A read of KBSR_ADDR does not see a value stored there (R64). -/
theorem State.memRead_memWrite_kbsr (s : State) (v : Word) :
    ((s.memWrite s.params.kbsrAddr v).memRead s.params.kbsrAddr).1 =
      (s.memRead s.params.kbsrAddr).1 := by
  have hparams := s.memWrite_params s.params.kbsrAddr v
  rw [State.memRead_of_eq _ (by rw [hparams]), s.memRead_of_eq rfl]
  exact s.cell_keyboardPoll_memWrite_kbsr v _

/-- Settles O12: the store changes one cell and no other field, and the poll overwrites what a store left
in the status cell. -/
theorem memWriteIsPlainStore : Obligations.MemWriteIsPlainStore :=
  fun s a v => ⟨s.cell_setCell_same a v, sameCellsBut_memWrite s a v, fun q _ => s.reg_memWrite a v q,
    s.memWrite_pc a v, s.memWrite_cond a v, ⟨s.memWrite_input a v, s.memWrite_output a v⟩,
    ⟨s.memWrite_status a v, s.memWrite_params a v⟩, s.memRead_memWrite_kbsr v⟩

end Sys2Proof.Machine
end

section
/-! PROOFS. The decoder on the word of an instruction (R91, R95 to R98), and what a word's opcode says of it
(R96). -/

namespace Sys2Proof

/-! ### The fields of each format -/

@[simp] theorem encodePC9_fields (op : BitVec 4) (r : BitVec 3) (off : BitVec 9) :
    (encodePC9 op r off).extractLsb' 12 4 = op ∧ (encodePC9 op r off).extractLsb' 9 3 = r ∧
    (encodePC9 op r off).extractLsb' 0 9 = off := by
  refine ⟨?_, ?_, ?_⟩ <;>
    exact extractLsb'_eq_of_getLsbD _ _ _ _ fun k hk => by grind [getLsbD_encodePC9]

@[simp] theorem encodeOPR_fields (op : BitVec 4) (dr sr1 : Reg) (ign : BitVec 2) (sr2 : Reg) :
    (encodeOPR op dr sr1 ign sr2).extractLsb' 12 4 = op ∧
    (encodeOPR op dr sr1 ign sr2).extractLsb' 9 3 = dr.bits ∧
    (encodeOPR op dr sr1 ign sr2).extractLsb' 6 3 = sr1.bits ∧
    (encodeOPR op dr sr1 ign sr2).extractLsb' 3 2 = ign ∧
    (encodeOPR op dr sr1 ign sr2).extractLsb' 0 3 = sr2.bits := by
  refine ⟨?_, ?_, ?_, ?_, ?_⟩ <;>
    exact extractLsb'_eq_of_getLsbD _ _ _ _ fun k hk => by grind [getLsbD_encodeOPR]

@[simp] theorem encodeOPI_fields (op : BitVec 4) (dr sr1 : Reg) (imm : BitVec 5) :
    (encodeOPI op dr sr1 imm).extractLsb' 12 4 = op ∧
    (encodeOPI op dr sr1 imm).extractLsb' 9 3 = dr.bits ∧
    (encodeOPI op dr sr1 imm).extractLsb' 6 3 = sr1.bits ∧
    (encodeOPI op dr sr1 imm).extractLsb' 0 5 = imm := by
  refine ⟨?_, ?_, ?_, ?_⟩ <;>
    exact extractLsb'_eq_of_getLsbD _ _ _ _ fun k hk => by grind [getLsbD_encodeOPI]

@[simp] theorem encodeBASE6_fields (op : BitVec 4) (hi base : BitVec 3) (lo : BitVec 6) :
    (encodeBASE6 op hi base lo).extractLsb' 12 4 = op ∧
    (encodeBASE6 op hi base lo).extractLsb' 9 3 = hi ∧
    (encodeBASE6 op hi base lo).extractLsb' 6 3 = base ∧
    (encodeBASE6 op hi base lo).extractLsb' 0 6 = lo := by
  refine ⟨?_, ?_, ?_, ?_⟩ <;>
    exact extractLsb'_eq_of_getLsbD _ _ _ _ fun k hk => by grind [getLsbD_encodeBASE6]

@[simp] theorem encodeTRAP_fields (ign : BitVec 4) (code : BitVec 8) :
    (encodeTRAP ign code).extractLsb' 12 4 = 0xF ∧ (encodeTRAP ign code).extractLsb' 8 4 = ign ∧
    (encodeTRAP ign code).extractLsb' 0 8 = code := by
  refine ⟨?_, ?_, ?_⟩ <;>
    exact extractLsb'_eq_of_getLsbD _ _ _ _ fun k hk => by grind [getLsbD_encodeTRAP]

/-- Bit 5 tells the register form of ADD and AND from the immediate form. -/
@[simp] theorem isImmediateMode_encodeOPR (op : BitVec 4) (dr sr1 : Reg) (ign : BitVec 2) (sr2 : Reg) :
    isImmediateMode (encodeOPR op dr sr1 ign sr2) = false := by
  simp [isImmediateMode, -BitVec.getLsbD_eq_getElem, getLsbD_encodeOPR]

@[simp] theorem isImmediateMode_encodeOPI (op : BitVec 4) (dr sr1 : Reg) (imm : BitVec 5) :
    isImmediateMode (encodeOPI op dr sr1 imm) = true := by
  simp [isImmediateMode, -BitVec.getLsbD_eq_getElem, getLsbD_encodeOPI]

theorem mask_bits : ∀ n z p : Bool,
    (BitVec.ofBool n ++ BitVec.ofBool z ++ BitVec.ofBool p).getLsbD 2 = n ∧
    (BitVec.ofBool n ++ BitVec.ofBool z ++ BitVec.ofBool p).getLsbD 1 = z ∧
    (BitVec.ofBool n ++ BitVec.ofBool z ++ BitVec.ofBool p).getLsbD 0 = p := by decide

/-- The mask bits of BR stand one above another in the field that other PC9 instructions use for a register. -/
theorem encode_br_fields (n z p : Bool) (off : BitVec 9) :
    (encode (.br n z p off)).getLsbD 11 = n ∧ (encode (.br n z p off)).getLsbD 10 = z ∧
    (encode (.br n z p off)).getLsbD 9 = p ∧ (encode (.br n z p off)).extractLsb' 0 9 = off := by
  obtain ⟨hn, hz, hp⟩ := mask_bits n z p
  obtain ⟨-, -, hoff⟩ := encodePC9_fields 0x0 (BitVec.ofBool n ++ BitVec.ofBool z ++ BitVec.ofBool p) off
  exact ⟨(getLsbD_encodePC9 _ _ _ _).trans hn, (getLsbD_encodePC9 _ _ _ _).trans hz,
    (getLsbD_encodePC9 _ _ _ _).trans hp, hoff⟩

theorem encode_jsr_fields (off : BitVec 11) :
    (encode (.jsr off)).extractLsb' 12 4 = 0x4 ∧ (encode (.jsr off)).getLsbD 11 = true ∧
    (encode (.jsr off)).extractLsb' 0 11 = off := by
  refine ⟨BitVec.extractLsb'_append_eq_of_le (by decide), ?_, BitVec.extractLsb'_append_eq_right⟩
  grind [encode]

theorem encode_jsrr_fields (ignHi : BitVec 2) (base : Reg) (ignLo : BitVec 6) :
    (encode (.jsrr ignHi base ignLo)).extractLsb' 12 4 = 0x4 ∧
    (encode (.jsrr ignHi base ignLo)).getLsbD 11 = false ∧
    (encode (.jsrr ignHi base ignLo)).extractLsb' 9 2 = ignHi ∧
    (encode (.jsrr ignHi base ignLo)).extractLsb' 6 3 = base.bits ∧
    (encode (.jsrr ignHi base ignLo)).extractLsb' 0 6 = ignLo := by
  refine ⟨extractLsb'_eq_of_getLsbD _ _ _ _ fun k hk => ?_, ?_, ?_, ?_, ?_⟩
  · interval_cases k <;> simp only [encode, BitVec.getLsbD_append] <;> simp
  · grind [encode]
  all_goals exact extractLsb'_eq_of_getLsbD _ _ _ _ fun k hk => by grind [encode]

/-! ### The decoder on the word of an instruction -/

/-- The top nibble of an instruction's word is the one the opcode map gives its opcode (R96). -/
theorem opcode_encode (i : Instr) : opcode (encode i) = i.opcode := by
  unfold opcode
  cases i with
  | jsr off => rw [(encode_jsr_fields off).1]; rfl
  | jsrr ignHi base ignLo => rw [(encode_jsrr_fields ignHi base ignLo).1]; rfl
  | rti ign => exact congrArg Opcode.ofNibble (BitVec.extractLsb'_append_eq_left (a := 0x8#4))
  | res ign => exact congrArg Opcode.ofNibble (BitVec.extractLsb'_append_eq_left (a := 0xD#4))
  | _ => simp [encode, Opcode.ofNibble, Instr.opcode]

theorem decodeTrap_of_unrecognised {code : BitVec 8} (ign : BitVec 4)
    (h : isRecognisedTrapCode code = false) : decodeTrap ign code = .trapUnknown ign code := by
  simp only [isRecognisedTrapCode, recognisedTrapCodes, List.contains_eq_mem, decide_eq_false_iff_not,
    List.mem_cons, List.not_mem_nil, or_false, not_or] at h
  simp only [decodeTrap, h, if_false]

/-- No bit of an instruction is lost by its word (R95, R98): the opcode selects the arm of the decoder, and
each field is read where the format puts it. -/
theorem decode_encode {i : Instr} (h : i.wellFormed = true) : decode (encode i) = i := by
  unfold decode
  rw [opcode_encode i]
  cases i with
  | br n z p off =>
    obtain ⟨hn, hz, hp, hoff⟩ := encode_br_fields n z p off
    simp only [Instr.opcode, hn, hz, hp, pcOffset9, hoff]
  | jsr off =>
    obtain ⟨-, hbit, hoff⟩ := encode_jsr_fields off
    simp only [Instr.opcode, isPcRelativeCall, hbit, if_true, pcOffset11, hoff]
  | jsrr ignHi base ignLo =>
    obtain ⟨-, hbit, hhi, hbase, hlo⟩ := encode_jsrr_fields ignHi base ignLo
    simp only [Instr.opcode, isPcRelativeCall, hbit, Bool.false_eq_true, if_false, sourceRegister1, hhi, hbase,
      Reg.ofBits_bits, hlo]
  | trapUnknown ign code =>
    have hcode : isRecognisedTrapCode code = false := by simpa [Instr.wellFormed] using h
    simp [Instr.opcode, encode, trapCode, decodeTrap_of_unrecognised ign hcode]
  | rti ign => exact congrArg Instr.rti (BitVec.extractLsb'_append_eq_right (a := 0x8#4))
  | res ign => exact congrArg Instr.res (BitVec.extractLsb'_append_eq_right (a := 0xD#4))
  | _ =>
    simp [Instr.opcode, encode, destinationRegister, sourceRegister1, sourceRegister2, immediate5, offset6,
      pcOffset9, trapCode, decodeTrap]

/-! ### The opcode of a word -/

theorem Opcode.ofNibble_injective : Function.Injective Opcode.ofNibble := by
  unfold Function.Injective
  decide

/-- The opcode gives the top nibble back, so a word is its opcode's nibble and the twelve bits below. -/
theorem append_low_of_opcode {w : Word} {x : BitVec 4} (h : opcode w = .ofNibble x) :
    x ++ w.extractLsb' 0 12 = w := by
  have hnibble : w.extractLsb' 12 4 = x := Opcode.ofNibble_injective h
  rw [← hnibble]
  exact BitVec.extractLsb'_append_extractLsb'

end Sys2Proof
end

section
/-! PROOFS. The engine cycle: one step fetches, decodes and executes (R120), and the reserved opcodes fault
(R122). -/

namespace Sys2Proof.Machine

theorem step_of_status_running {s : State} (h : s.status = .running) :
    step s = exec (decode (s.memRead s.pc).1) ((s.memRead s.pc).2.setPc (s.pc + 1)) := by
  unfold step
  rw [h]
  rfl

/-- A reserved opcode faults with the word itself recorded and nothing else changed (R122, R240). -/
theorem exec_decode_of_reserved {w : Word} (h : opcode w = .rti ∨ opcode w = .res) (s : State) :
    exec (decode w) s = .next (s.setStatus (.faulted .reservedOpcode w)) := by
  obtain hrti | hres := h
  · have hdecode : decode w = .rti (w.extractLsb' 0 12) := by simp only [decode, hrti]
    have hencode : encode (.rti (w.extractLsb' 0 12)) = w := append_low_of_opcode (x := 0x8#4) hrti
    rw [hdecode, exec, execRti, hencode, State.raiseFault]
  · have hdecode : decode w = .res (w.extractLsb' 0 12) := by simp only [decode, hres]
    have hencode : encode (.res (w.extractLsb' 0 12)) = w := append_low_of_opcode (x := 0xD#4) hres
    rw [hdecode, exec, execRes, hencode, State.raiseFault]

/-- Away from the status cell the fetch reads the cell at PC and does not poll, so the instruction whose word
stands there is the one that runs. -/
theorem step_of_cell_pc_eq_encode {s : State} {i : Instr} (h : s.status = .running)
    (hi : i.wellFormed = true) (hpc : s.pc ≠ s.params.kbsrAddr) (hcell : s.cell s.pc = encode i) :
    step s = exec i (s.setPc (s.pc + 1)) := by
  rw [step_of_status_running h, s.memRead_of_ne s.pc hpc, hcell, decode_encode hi]

/-- Settles O15: the step's equation when the status is Running and when it is not, with the decoder's law of
the reserved opcodes, and `decode` undoing `encode`. -/
theorem stepRunsDecodedInstruction : Obligations.StepRunsDecodedInstruction :=
  fun _ => ⟨step_of_status_ne_running, fun hrun =>
    ⟨step_of_status_running hrun,
      fun hres => (step_of_status_running hrun).trans (exec_decode_of_reserved hres _),
      fun _ hi hpc hcell => step_of_cell_pc_eq_encode hrun hi hpc hcell⟩⟩

end Sys2Proof.Machine
end

section
/-! PROOFS. The operate instructions ADD, AND and NOT (41_operate.md): each answers one `write_and_update` of
its destination, so what is left for each is the value written. -/

namespace Sys2Proof.Machine

/-! ### What every operate instruction does -/

/-- `write_and_update` changes its register and COND only (R37). -/
theorem sameButReg_writeAndUpdate (s : State) (r : Reg) (v : Word) :
    SameButReg r s (s.writeAndUpdate r v) :=
  ⟨sameRegsBut_setReg s r v, s.writeAndUpdate_pc r v, fun a _ => s.cell_writeAndUpdate r v a,
    ⟨s.writeAndUpdate_input r v, s.writeAndUpdate_output r v⟩,
    ⟨s.writeAndUpdate_status r v, s.writeAndUpdate_params r v⟩⟩

/-- An instruction whose meaning is one `write_and_update`: the value in its destination, COND from it, and
nothing else changed. -/
theorem outcome_of_exec_eq_writeAndUpdate {i : Instr} {s : State} {dr : Reg} {v : Word}
    (h : exec i s = .next (s.writeAndUpdate dr v)) :
    ∃ t, exec i s = .next t ∧ t.reg dr = v ∧ t.cond = condOf (t.reg dr) ∧ SameButReg dr s t :=
  ⟨_, h, s.reg_writeAndUpdate_same dr v, s.writeAndUpdate_cond dr v, sameButReg_writeAndUpdate s dr v⟩

theorem exec_addReg (dr sr1 sr2 : Reg) (ign : BitVec 2) (s : State) :
    exec (.addReg dr sr1 ign sr2) s = .next (s.writeAndUpdate dr (s.reg sr1 + s.reg sr2)) := rfl

theorem exec_addImm (dr sr1 : Reg) (imm : BitVec 5) (s : State) :
    exec (.addImm dr sr1 imm) s = .next (s.writeAndUpdate dr (s.reg sr1 + sextField imm)) := rfl

theorem exec_andReg (dr sr1 sr2 : Reg) (ign : BitVec 2) (s : State) :
    exec (.andReg dr sr1 ign sr2) s = .next (s.writeAndUpdate dr (s.reg sr1 &&& s.reg sr2)) := rfl

theorem exec_andImm (dr sr1 : Reg) (imm : BitVec 5) (s : State) :
    exec (.andImm dr sr1 imm) s = .next (s.writeAndUpdate dr (s.reg sr1 &&& sextField imm)) := rfl

theorem exec_not (dr sr : Reg) (ign : BitVec 6) (s : State) :
    exec (.not dr sr ign) s = .next (s.writeAndUpdate dr (~~~ s.reg sr)) := rfl

/-! ### The values written -/

/-- The wrapped sum is the two's-complement sum of the operands (R140). -/
theorem add_eq_ofInt_toInt_add (x y : Word) : x + y = BitVec.ofInt 16 (x.toInt + y.toInt) := by
  rw [BitVec.ofInt_add, BitVec.ofInt_toInt, BitVec.ofInt_toInt]

/-- Widening by the sign keeps the signed value of the field, so a sum with it is the sum with that value. -/
theorem add_sextField_eq_ofInt (x : Word) (imm : BitVec 5) :
    x + sextField imm = BitVec.ofInt 16 (x.toInt + imm.toInt) := by
  rw [BitVec.ofInt_add, BitVec.ofInt_toInt, sextField, BitVec.signExtend]

/-- The bits of an AND with a widened imm5: from bit 5 on they meet the sign of the field, its bit 4. -/
theorem getLsbD_and_sextField (x : Word) (imm : BitVec 5) {k : Nat} (hk : k < 16) :
    (x &&& sextField imm).getLsbD k =
      (x.getLsbD k && (if k < 5 then imm.getLsbD k else imm.getLsbD 4)) := by
  rw [BitVec.getLsbD_and, getLsbD_sextField imm k hk, BitVec.msb_eq_getLsbD_last]

/-! ### The obligations -/

/-- Settles O28: each word is the encoding of its instruction, and the sum written is the one modulo 2^16 and
the two's-complement one. -/
theorem addWritesTheWrappedSum : Obligations.AddWritesTheWrappedSum := by
  refine ⟨fun dr sr1 sr2 ign => ⟨decode_encode (i := .addReg dr sr1 ign sr2) rfl, fun s => ?_⟩,
    fun dr sr1 imm => ⟨decode_encode (i := .addImm dr sr1 imm) rfl, fun s => ?_⟩⟩
  · obtain ⟨t, hexec, hreg, hcond, hsame⟩ :=
      outcome_of_exec_eq_writeAndUpdate (exec_addReg dr sr1 sr2 ign s)
    have hnat : (t.reg dr).toNat = ((s.reg sr1).toNat + (s.reg sr2).toNat) % 65536 := by
      rw [hreg, BitVec.toNat_add]
    exact ⟨t, hexec, hnat, hreg.trans (add_eq_ofInt_toInt_add _ _), hcond, hsame⟩
  · obtain ⟨t, hexec, hreg, hcond, hsame⟩ :=
      outcome_of_exec_eq_writeAndUpdate (exec_addImm dr sr1 imm s)
    exact ⟨t, hexec, hreg.trans (add_sextField_eq_ofInt _ imm), hcond, hsame⟩

/-- Settles O29: each word is the encoding of its instruction, and the bits of what is written are those of
the AND. -/
theorem andWritesTheBitwiseAnd : Obligations.AndWritesTheBitwiseAnd := by
  refine ⟨fun dr sr1 sr2 ign => ⟨decode_encode (i := .andReg dr sr1 ign sr2) rfl, fun s => ?_⟩,
    fun dr sr1 imm => ⟨decode_encode (i := .andImm dr sr1 imm) rfl, fun s => ?_⟩⟩
  · obtain ⟨t, hexec, hreg, hcond, hsame⟩ :=
      outcome_of_exec_eq_writeAndUpdate (exec_andReg dr sr1 sr2 ign s)
    exact ⟨t, hexec, fun k => by rw [hreg, BitVec.getLsbD_and], hcond, hsame⟩
  · obtain ⟨t, hexec, hreg, hcond, hsame⟩ :=
      outcome_of_exec_eq_writeAndUpdate (exec_andImm dr sr1 imm s)
    exact ⟨t, hexec, fun k hk => by rw [hreg, getLsbD_and_sextField _ imm hk], hcond, hsame⟩

/-- Settles O30: the word is the encoding of the instruction, and each bit written is the source's inverted. -/
theorem notInvertsEveryBit : Obligations.NotInvertsEveryBit := by
  refine fun dr sr ign => ⟨decode_encode (i := .not dr sr ign) rfl, fun s => ?_⟩
  obtain ⟨t, hexec, hreg, hcond, hsame⟩ := outcome_of_exec_eq_writeAndUpdate (exec_not dr sr ign s)
  have hbits : ∀ k, k < 16 → (t.reg dr).getLsbD k = !(s.reg sr).getLsbD k := fun k hk => by
    rw [hreg, BitVec.getLsbD_not, decide_eq_true hk, Bool.true_and]
  exact ⟨t, hexec, hbits, hcond, hsame⟩

end Sys2Proof.Machine
end

section
/-! PROOFS. Data movement (42_data_movement.md): each load is one `loadInto` and each store one `memWrite`, so
what is left for each is its address; LDI and STI do it on the state that their pointer read left. -/

namespace Sys2Proof.Machine

/-! ### What every load does -/

/-- A load does what `LoadLeaves` says of its one memory read. -/
theorem loadLeaves_loadInto (s : State) (dr : Reg) (a : Word) :
    LoadLeaves s dr (s.memRead a) (s.loadInto dr a) := by
  obtain ⟨hreg, hcond, hpc, hcell, hinput, houtput, hrun⟩ := s.loadInto_spec dr a
  have hdr : (s.loadInto dr a).reg dr = (s.memRead a).1 := by rw [hreg, if_pos rfl]
  have hothers : SameRegsBut [dr] s (s.loadInto dr a) := fun q hq => by
    rw [hreg, if_neg (List.ne_of_not_mem_cons hq)]
  exact ⟨hdr, hcond, hothers, hpc, hcell, hinput, houtput, hrun⟩

/-- A memory read keeps all that a load keeps, so a load on the state it left keeps that since before it. -/
theorem LoadLeaves.of_memRead {s t : State} {a : Word} {dr : Reg} {r : Word × State}
    (h : LoadLeaves (s.memRead a).2 dr r t) : LoadLeaves s dr r t := by
  obtain ⟨hdr, hcond, hothers, hpc, hcell, hinput, houtput, hstatus, hparams⟩ := h
  exact ⟨hdr, hcond, fun q hq => (hothers q hq).trans (s.memRead_reg a q), hpc.trans (s.memRead_pc a),
    hcell, hinput, houtput.trans (s.memRead_output a), hstatus.trans (s.memRead_status a),
    hparams.trans (s.memRead_params a)⟩

/-- A load whose reads left the state as it was, none of them having polled, changes neither memory nor the
streams. -/
theorem LoadLeaves.of_reads_eq {s t : State} {dr : Reg} {r : Word × State} {v : Word}
    (h : LoadLeaves s dr r t) (hr : r = (v, s)) :
    t.reg dr = v ∧ SameCellsBut [] s t ∧ SameStreams s t := by
  subst hr
  obtain ⟨hdr, -, -, -, hcell, hinput, houtput, -⟩ := h
  exact ⟨hdr, fun a _ => hcell a, hinput, houtput⟩

/-- An instruction whose meaning is one load: what its read leaves, and away from KBSR_ADDR the cell itself. -/
theorem outcome_of_exec_eq_loadInto {i : Instr} {s : State} {dr : Reg} {a : Word}
    (h : exec i s = .next (s.loadInto dr a)) :
    ∃ t, exec i s = .next t ∧ LoadLeaves s dr (s.memRead a) t ∧
      (a ≠ s.params.kbsrAddr → t.reg dr = s.cell a ∧ SameCellsBut [] s t ∧ SameStreams s t) :=
  have hload := loadLeaves_loadInto s dr a
  ⟨_, h, hload, fun ha => hload.of_reads_eq (s.memRead_of_ne a ha)⟩

/-! ### What every store does -/

/-- A store does what `StoreLeaves` says when nothing was read before it. -/
theorem storeLeaves_memWrite (s : State) (ea v : Word) : StoreLeaves s ea v s (s.memWrite ea v) :=
  ⟨s.cell_setCell_same ea v, fun b hb => (s.cell_memWrite ea b v).trans (if_neg hb),
    fun q _ => s.reg_memWrite ea v q, s.memWrite_cond ea v, s.memWrite_pc ea v, s.memWrite_input ea v,
    s.memWrite_output ea v, s.memWrite_status ea v, s.memWrite_params ea v⟩

/-- A memory read keeps all that a store keeps, so a store on the state it left keeps that since before it. -/
theorem StoreLeaves.of_memRead {s r t : State} {a ea v : Word}
    (h : StoreLeaves (s.memRead a).2 ea v r t) : StoreLeaves s ea v r t := by
  obtain ⟨hea, hcell, hregs, hcond, hpc, hinput, houtput, hstatus, hparams⟩ := h
  exact ⟨hea, hcell, fun q hq => (hregs q hq).trans (s.memRead_reg a q), hcond.trans (s.memRead_cond a),
    hpc.trans (s.memRead_pc a), hinput, houtput.trans (s.memRead_output a),
    hstatus.trans (s.memRead_status a), hparams.trans (s.memRead_params a)⟩

/-! ### What LEA does when it leaves COND -/

/-- A register write alone changes that register only: COND too stays as it was. -/
theorem sameButReg_setReg (s : State) (r : Reg) (v : Word) : SameButReg r s (s.setReg r v) :=
  ⟨sameRegsBut_setReg s r v, s.setReg_pc r v, fun a _ => s.cell_setReg r v a,
    ⟨s.setReg_input r v, s.setReg_output r v⟩, ⟨s.setReg_status r v, s.setReg_params r v⟩⟩

/-! ### Which load, store or register write each instruction is -/

theorem exec_ld (dr : Reg) (off : BitVec 9) (s : State) :
    exec (.ld dr off) s = .next (s.loadInto dr (s.pc + off.signExtend 16)) := rfl

theorem exec_ldi (dr : Reg) (off : BitVec 9) (s : State) :
    exec (.ldi dr off) s = .next ((s.memRead (s.pc + off.signExtend 16)).2.loadInto dr
      (s.memRead (s.pc + off.signExtend 16)).1) := rfl

theorem exec_ldr (dr base : Reg) (off : BitVec 6) (s : State) :
    exec (.ldr dr base off) s = .next (s.loadInto dr (s.reg base + off.signExtend 16)) := rfl

theorem exec_lea_of_leaSetsCc (dr : Reg) (off : BitVec 9) {s : State} (h : s.params.leaSetsCc = true) :
    exec (.lea dr off) s = .next (s.writeAndUpdate dr (s.pc + off.signExtend 16)) := if_pos h

theorem exec_lea_of_not_leaSetsCc (dr : Reg) (off : BitVec 9) {s : State} (h : ¬ s.params.leaSetsCc = true) :
    exec (.lea dr off) s = .next (s.setReg dr (s.pc + off.signExtend 16)) := if_neg h

theorem exec_st (sr : Reg) (off : BitVec 9) (s : State) :
    exec (.st sr off) s = .next (s.memWrite (s.pc + off.signExtend 16) (s.reg sr)) := rfl

theorem exec_sti (sr : Reg) (off : BitVec 9) (s : State) :
    exec (.sti sr off) s = .next ((s.memRead (s.pc + off.signExtend 16)).2.memWrite
      (s.memRead (s.pc + off.signExtend 16)).1 (s.reg sr)) := rfl

theorem exec_str (sr base : Reg) (off : BitVec 6) (s : State) :
    exec (.str sr base off) s = .next (s.memWrite (s.reg base + off.signExtend 16) (s.reg sr)) := rfl

/-! ### The obligations -/

/-- Settles O31: the word is the encoding of the instruction, and LD is one load. -/
theorem ldLoadsPcRelative : Obligations.LdLoadsPcRelative :=
  fun dr off => ⟨decode_encode (i := .ld dr off) rfl,
    fun s => outcome_of_exec_eq_loadInto (exec_ld dr off s)⟩

/-- Settles O32: LDI is a load on the state that its pointer read left; with both addresses away from
KBSR_ADDR neither read changes that state. -/
theorem ldiLoadsThroughThePointer : Obligations.LdiLoadsThroughThePointer := by
  refine fun dr off => ⟨decode_encode (i := .ldi dr off) rfl, fun s => ?_⟩
  have hload := (loadLeaves_loadInto (s.memRead (s.pc + off.signExtend 16)).2 dr
    (s.memRead (s.pc + off.signExtend 16)).1).of_memRead
  refine ⟨_, exec_ldi dr off s, hload, fun hpointer htarget => hload.of_reads_eq ?_⟩
  rw [s.memRead_of_ne _ hpointer, s.memRead_of_ne _ htarget]

/-- Settles O33: the word is the encoding of the instruction, and LDR is one load, whose address is read from
the registers before it. -/
theorem ldrLoadsBasePlusOffset : Obligations.LdrLoadsBasePlusOffset :=
  fun dr base off => ⟨decode_encode (i := .ldr dr base off) rfl,
    fun s => outcome_of_exec_eq_loadInto (exec_ldr dr base off s)⟩

/-- Settles O34: LEA is a `write_and_update` or a register write alone, as LEA_SETS_CC says. -/
theorem leaWritesTheAddress : Obligations.LeaWritesTheAddress := by
  refine fun dr off => ⟨decode_encode (i := .lea dr off) rfl, fun s => ?_⟩
  by_cases hcc : s.params.leaSetsCc = true
  · obtain ⟨t, hexec, hreg, hcond, hsame⟩ :=
      outcome_of_exec_eq_writeAndUpdate (exec_lea_of_leaSetsCc dr off hcc)
    exact ⟨t, hexec, hreg, hcond.trans (if_pos hcc).symm, hsame⟩
  · exact ⟨_, exec_lea_of_not_leaSetsCc dr off hcc, s.reg_setReg_same dr _,
      (s.setReg_cond dr _).trans (if_neg hcc).symm, sameButReg_setReg s dr _⟩

/-- Settles O35: the word is the encoding of the instruction, and ST is one store. -/
theorem stStoresPcRelative : Obligations.StStoresPcRelative :=
  fun sr off => ⟨decode_encode (i := .st sr off) rfl,
    fun s => ⟨_, exec_st sr off s, storeLeaves_memWrite s _ _⟩⟩

/-- Settles O36: STI is a store on the state that its pointer read left. -/
theorem stiStoresThroughThePointer : Obligations.StiStoresThroughThePointer :=
  fun sr off => ⟨decode_encode (i := .sti sr off) rfl,
    fun s => ⟨_, exec_sti sr off s, (storeLeaves_memWrite _ _ _).of_memRead⟩⟩

/-- Settles O37: the word is the encoding of the instruction, and STR is one store. -/
theorem strStoresBasePlusOffset : Obligations.StrStoresBasePlusOffset :=
  fun sr base off => ⟨decode_encode (i := .str sr base off) rfl,
    fun s => ⟨_, exec_str sr base off s, storeLeaves_memWrite s _ _⟩⟩

end Sys2Proof.Machine
end

section
/-! PROOFS. Control transfer (43_control.md): BR and JMP write PC alone, and JSR and JSRR are one link of R7
and one jump, so what is left for each is its target. -/

namespace Sys2Proof.Machine

/-! ### BR and JMP -/

/-- The mask test of R190, spelled out. -/
theorem Cond.matchesMask_iff (c : Cond) (n z p : Bool) :
    c.matchesMask n z p = true ↔
      (n = true ∧ c = .neg) ∨ (z = true ∧ c = .zro) ∨ (p = true ∧ c = .pos) := by
  cases c <;> simp [Cond.matchesMask]

theorem exec_br_of_matchesMask {n z p : Bool} (off : BitVec 9) {s : State}
    (h : s.cond.matchesMask n z p = true) :
    exec (.br n z p off) s = .next (s.setPc (s.pc + off.signExtend 16)) := if_pos h

theorem exec_br_of_not_matchesMask {n z p : Bool} (off : BitVec 9) {s : State}
    (h : ¬ s.cond.matchesMask n z p = true) : exec (.br n z p off) s = .next s := if_neg h

theorem exec_jmp (ignHi : BitVec 3) (base : Reg) (ignLo : BitVec 6) (s : State) :
    exec (.jmp ignHi base ignLo) s = .next (s.setPc (s.reg base)) := rfl

/-- The word of RET (R193). -/
theorem decode_ret : decode 0xC1C0 = .jmp 0 .r7 0 := decode_encode (i := .jmp 0 .r7 0) rfl

/-! ### The link and jump of JSR and JSRR -/

/-- An instruction whose meaning is the link of R7 followed by a jump: R7 holds the advanced PC, PC the
target, and nothing else changed. -/
theorem outcome_of_exec_eq_link_jump {i : Instr} {s : State} {target : Word}
    (h : exec i s = .next ((s.setReg .r7 s.pc).setPc target)) :
    ∃ t, exec i s = .next t ∧ t.reg .r7 = s.pc ∧ t.pc = target ∧ SameRegsBut [.r7] s t ∧
      t.cond = s.cond ∧ SameCellsBut [] s t ∧ SameStreams s t ∧ SameRun s t := by
  obtain ⟨hregs, -, hcells, hstreams, hrun⟩ := sameButReg_setReg s .r7 s.pc
  exact ⟨_, h, s.reg_setReg_same .r7 s.pc, rfl, hregs, s.setReg_cond .r7 s.pc, hcells, hstreams, hrun⟩

theorem exec_jsr (off : BitVec 11) (s : State) :
    exec (.jsr off) s = .next ((s.setReg .r7 s.pc).setPc (s.pc + off.signExtend 16)) := rfl

/-- With JSRR_LINK_FIRST the base is read after the link, which only a base of R7 sees (R195). -/
theorem exec_jsrr (ignHi : BitVec 2) (base : Reg) (ignLo : BitVec 6) (s : State) :
    exec (.jsrr ignHi base ignLo) s = .next ((s.setReg .r7 s.pc).setPc
      (if base = .r7 ∧ s.params.jsrrLinkFirst = true then s.pc else s.reg base)) := by
  rw [exec, execJsrr]
  by_cases hfirst : s.params.jsrrLinkFirst = true
  · simp only [if_pos hfirst, State.reg_setReg, and_iff_left hfirst]
  · rw [if_neg hfirst, if_neg (not_and_of_not_right _ hfirst)]

/-! ### The obligations -/

/-- Settles O38: the word is the encoding of the instruction, and the branch is taken when the mask test
holds. -/
theorem brBranchesOnTheMask : Obligations.BrBranchesOnTheMask :=
  fun n z p off => ⟨decode_encode (i := .br n z p off) rfl, fun s =>
    have hmask := s.cond.matchesMask_iff n z p
    ⟨fun h => exec_br_of_matchesMask off (hmask.mpr h),
      fun h => exec_br_of_not_matchesMask off (mt hmask.mp h)⟩⟩

/-- Settles O39: the word is the encoding of the instruction, JMP writes PC alone, and 0xC1C0 is JMP R7. -/
theorem jmpGoesToTheBase : Obligations.JmpGoesToTheBase :=
  ⟨fun ignHi base ignLo => ⟨decode_encode (i := .jmp ignHi base ignLo) rfl, exec_jmp ignHi base ignLo⟩,
    fun s => by rw [decode_ret, exec_jmp]⟩

/-- Settles O40: the word is the encoding of the instruction, and JSR is a link and a jump to PC plus
offset. -/
theorem jsrLinksAndJumps : Obligations.JsrLinksAndJumps :=
  fun off => ⟨decode_encode (i := .jsr off) rfl,
    fun s => outcome_of_exec_eq_link_jump (exec_jsr off s)⟩

/-- Settles O41: the word is the encoding of the instruction, and JSRR is a link and a jump, in both orders
of link and read. -/
theorem jsrrLinksAndJumps : Obligations.JsrrLinksAndJumps :=
  fun ignHi base ignLo => ⟨decode_encode (i := .jsrr ignHi base ignLo) rfl,
    fun s => outcome_of_exec_eq_link_jump (exec_jsrr ignHi base ignLo s)⟩

end Sys2Proof.Machine
end

section
/-! PROOFS. TRAP and the reserved opcodes (44_trap.md): OUT and HALT are the R7 link followed by an output, so
what is left for each is the bytes it writes; RTI and RES are the reserved opcodes of R122. -/

namespace Sys2Proof.Machine

/-! ### OUT and HALT -/

/-- The low byte as the spec computes it (R217). -/
theorem lowByte_eq_ofNat (v : Word) : lowByte v = BitVec.ofNat 8 (v.toNat % 256) :=
  BitVec.eq_of_toNat_eq (by simp [lowByte])

/-- The link and the output of a trap routine: the bytes are appended, R7 is linked when TRAP_LINKS_R7
(R212), and nothing else changes. -/
theorem trapLink_out_leaves (s : State) (bs : List Byte) :
    (s.trapLink.out bs).output = s.output ++ bs ∧ LinkedRegsBut [] s (s.trapLink.out bs) ∧
      (s.trapLink.out bs).cond = s.cond ∧ (s.trapLink.out bs).pc = s.pc ∧
      SameCellsBut [] s (s.trapLink.out bs) ∧ (s.trapLink.out bs).input = s.input ∧
      SameRun s (s.trapLink.out bs) :=
  ⟨congrArg (· ++ bs) s.trapLink_output, fun q _ => s.trapLink_reg q, s.trapLink_cond, s.trapLink_pc,
    fun a _ => s.trapLink_cell a, s.trapLink_input, s.trapLink_status, s.trapLink_params⟩

theorem exec_trapOut (ign : BitVec 4) (s : State) :
    exec (.trapOut ign) s = .next (s.trapLink.out [lowByte (s.reg .r0)]) := rfl

theorem exec_trapHalt (ign : BitVec 4) (s : State) :
    exec (.trapHalt ign) s = .next ((s.trapLink.out s.params.haltNotice).setStatus .halted) := rfl

/-! ### The obligations -/

/-- Settles O43: the word is the encoding of the instruction, and OUT is a link and the output of one byte,
the low one of R0. -/
theorem outWritesTheLowByte : Obligations.OutWritesTheLowByte :=
  fun ign => ⟨decode_encode (i := .trapOut ign) rfl, fun s => by
    rw [← lowByte_eq_ofNat]
    exact ⟨_, exec_trapOut ign s, trapLink_out_leaves s _⟩⟩

/-- Settles O51: the word is the encoding of the instruction, and HALT is a link and the output of the notice,
then a change of the status alone. -/
theorem haltWritesTheNoticeAndHalts : Obligations.HaltWritesTheNoticeAndHalts :=
  fun ign => ⟨decode_encode (i := .trapHalt ign) rfl, fun s =>
    have ⟨houtput, hregs, hcond, hpc, hcells, hinput, _, hparams⟩ :=
      trapLink_out_leaves s s.params.haltNotice
    ⟨_, exec_trapHalt ign s, State.setStatus_status _ .halted, houtput, hregs, hcond, hpc, hcells, hinput,
      hparams⟩⟩

/-- Settles O53: each word is the encoding of its instruction, whose opcode is reserved, and the word itself
is the one recorded. -/
theorem reservedOpcodesFault : Obligations.ReservedOpcodesFault := fun ign =>
  have hrti : decode (0x8#4 ++ ign) = .rti ign := decode_encode (i := .rti ign) rfl
  have hres : decode (0xD#4 ++ ign) = .res ign := decode_encode (i := .res ign) rfl
  ⟨hrti, hres, fun s =>
    ⟨hrti ▸ exec_decode_of_reserved (.inl (opcode_encode (.rti ign))) s,
      hres ▸ exec_decode_of_reserved (.inr (opcode_encode (.res ign))) s⟩⟩

end Sys2Proof.Machine
end

section
/-! PROOFS. The encoding of instructions (30_encoding.md): `encode` undoes `decode` on every word, and the
opcode table (R100) decodes as `decode` does. -/

namespace Sys2Proof

/-- Settles O1: `decode` undoes `encode` on every well-formed instruction. -/
theorem decodeOfEncodeIsIdentity : Obligations.DecodeOfEncodeIsIdentity := fun _ => decode_encode

/-! ### A word put together again from its fields -/

/-- The opcode map of R96 read backwards. -/
def Opcode.nibble : Opcode → BitVec 4
  | .br => 0x0
  | .add => 0x1
  | .ld => 0x2
  | .st => 0x3
  | .jsr => 0x4
  | .and => 0x5
  | .ldr => 0x6
  | .str => 0x7
  | .rti => 0x8
  | .not => 0x9
  | .ldi => 0xA
  | .sti => 0xB
  | .jmp => 0xC
  | .res => 0xD
  | .lea => 0xE
  | .trap => 0xF

@[simp] theorem Opcode.ofNibble_nibble (o : Opcode) : ofNibble o.nibble = o := by cases o <;> rfl

theorem extractLsb'_opcode (w : Word) : w.extractLsb' 12 4 = (opcode w).nibble :=
  Opcode.ofNibble_injective (Opcode.ofNibble_nibble (opcode w)).symm

@[simp] theorem bits_destinationRegister (w : Word) : (destinationRegister w).bits = w.extractLsb' 9 3 :=
  Reg.bits_ofBits _

@[simp] theorem bits_sourceRegister1 (w : Word) : (sourceRegister1 w).bits = w.extractLsb' 6 3 :=
  Reg.bits_ofBits _

@[simp] theorem bits_sourceRegister2 (w : Word) : (sourceRegister2 w).bits = w.extractLsb' 0 3 :=
  Reg.bits_ofBits _

theorem extractLsb'_one (w : Word) (k : Nat) : w.extractLsb' k 1 = BitVec.ofBool (w.getLsbD k) := by
  refine extractLsb'_eq_of_getLsbD _ _ _ _ fun j hj => ?_
  obtain rfl : j = 0 := by omega
  simp

section
variable {w : Word} {op : BitVec 4} (h : w.extractLsb' 12 4 = op)
include h

theorem encodePC9_of_fields : encodePC9 op (destinationRegister w).bits (pcOffset9 w) = w := by
  rw [encodePC9, ← h, bits_destinationRegister, pcOffset9]
  exact BitVec.eq_of_getLsbD_eq fun k hk => by grind

theorem encodeBASE6_of_fields :
    encodeBASE6 op (w.extractLsb' 9 3) (sourceRegister1 w).bits (offset6 w) = w := by
  rw [encodeBASE6, ← h, bits_sourceRegister1, offset6]
  exact BitVec.eq_of_getLsbD_eq fun k hk => by grind

/-- The register form of ADD and AND: its fixed bit is the one that names the form. -/
theorem encodeOPR_of_fields (hmode : isImmediateMode w = false) :
    encodeOPR op (destinationRegister w) (sourceRegister1 w) (w.extractLsb' 3 2) (sourceRegister2 w) = w := by
  have hbit : w.extractLsb' 5 1 = 0#1 := (extractLsb'_one w 5).trans (congrArg BitVec.ofBool hmode)
  rw [encodeOPR, ← h, bits_destinationRegister, bits_sourceRegister1, bits_sourceRegister2, ← hbit]
  exact BitVec.eq_of_getLsbD_eq fun k hk => by grind

theorem encodeOPI_of_fields (hmode : isImmediateMode w = true) :
    encodeOPI op (destinationRegister w) (sourceRegister1 w) (immediate5 w) = w := by
  have hbit : w.extractLsb' 5 1 = 1#1 := (extractLsb'_one w 5).trans (congrArg BitVec.ofBool hmode)
  rw [encodeOPI, ← h, bits_destinationRegister, bits_sourceRegister1, immediate5, ← hbit]
  exact BitVec.eq_of_getLsbD_eq fun k hk => by grind

end

theorem encode_br_of_fields {w : Word} (h : w.extractLsb' 12 4 = 0x0) :
    encode (.br (w.getLsbD 11) (w.getLsbD 10) (w.getLsbD 9) (pcOffset9 w)) = w := by
  rw [encode, encodePC9, ← h, pcOffset9, ← extractLsb'_one, ← extractLsb'_one, ← extractLsb'_one]
  exact BitVec.eq_of_getLsbD_eq fun k hk => by grind

theorem encode_jsr_of_fields {w : Word} (h : w.extractLsb' 12 4 = 0x4#4) (hform : isPcRelativeCall w = true) :
    encode (.jsr (pcOffset11 w)) = w := by
  have hbit : w.extractLsb' 11 1 = 1#1 := (extractLsb'_one w 11).trans (congrArg BitVec.ofBool hform)
  rw [encode, ← h, ← hbit, pcOffset11]
  exact BitVec.eq_of_getLsbD_eq fun k hk => by grind

theorem encode_jsrr_of_fields {w : Word} (h : w.extractLsb' 12 4 = 0x4#4)
    (hform : isPcRelativeCall w = false) :
    encode (.jsrr (w.extractLsb' 9 2) (sourceRegister1 w) (w.extractLsb' 0 6)) = w := by
  have hbit : w.extractLsb' 11 1 = 0#1 := (extractLsb'_one w 11).trans (congrArg BitVec.ofBool hform)
  rw [encode, ← h, ← hbit, bits_sourceRegister1]
  exact BitVec.eq_of_getLsbD_eq fun k hk => by grind

theorem encodeTRAP_of_fields {w : Word} (h : w.extractLsb' 12 4 = 0xF#4) :
    encodeTRAP (w.extractLsb' 8 4) (trapCode w) = w := by
  rw [encodeTRAP, ← h, trapCode]
  exact BitVec.eq_of_getLsbD_eq fun k hk => by grind

/-! ### The trap codes -/

/-- A TRAP with a recognised code, as the six rows of R211 name them, or the unrecognised one. -/
theorem decodeTrap_cases (ign : BitVec 4) (code : BitVec 8) :
    (code = 0x20 ∧ decodeTrap ign code = .trapGetc ign) ∨ (code = 0x21 ∧ decodeTrap ign code = .trapOut ign) ∨
    (code = 0x22 ∧ decodeTrap ign code = .trapPuts ign) ∨ (code = 0x23 ∧ decodeTrap ign code = .trapIn ign) ∨
    (code = 0x24 ∧ decodeTrap ign code = .trapPutsp ign) ∨ (code = 0x25 ∧ decodeTrap ign code = .trapHalt ign) ∨
    (isRecognisedTrapCode code = false ∧ decodeTrap ign code = .trapUnknown ign code) := by
  by_cases h : code ∈ recognisedTrapCodes
  · simp only [recognisedTrapCodes, List.mem_cons, List.not_mem_nil, or_false] at h
    obtain rfl | rfl | rfl | rfl | rfl | rfl := h <;> simp [decodeTrap]
  · have hcode : isRecognisedTrapCode code = false := by simpa [isRecognisedTrapCode] using h
    simp only [hcode, decodeTrap_of_unrecognised ign hcode, and_self, or_true]

theorem encode_decodeTrap (ign : BitVec 4) (code : BitVec 8) :
    encode (decodeTrap ign code) = encodeTRAP ign code := by
  obtain ⟨rfl, h⟩ | ⟨rfl, h⟩ | ⟨rfl, h⟩ | ⟨rfl, h⟩ | ⟨rfl, h⟩ | ⟨rfl, h⟩ | ⟨-, h⟩ := decodeTrap_cases ign code <;>
    rw [h, encode]

theorem wellFormed_decodeTrap (ign : BitVec 4) (code : BitVec 8) :
    (decodeTrap ign code).wellFormed = true := by
  obtain ⟨rfl, h⟩ | ⟨rfl, h⟩ | ⟨rfl, h⟩ | ⟨rfl, h⟩ | ⟨rfl, h⟩ | ⟨rfl, h⟩ | ⟨hcode, h⟩ := decodeTrap_cases ign code <;>
    rw [h] <;> simp [Instr.wellFormed, *]

/-! ### `encode` undoes `decode` -/

/-- Every bit of a word is in some field of the instruction it decodes to (R90, R94): the opcode is the nibble,
and each format is put together again. -/
theorem encode_decode (w : Word) : encode (decode w) = w := by
  have hnibble := extractLsb'_opcode w
  unfold decode
  cases h : opcode w <;> rw [h] at hnibble <;> dsimp only
  case br => exact encode_br_of_fields hnibble
  case add | and =>
    split <;> rename_i hmode
    · exact encodeOPI_of_fields hnibble hmode
    · exact encodeOPR_of_fields hnibble (Bool.eq_false_of_not_eq_true hmode)
  case ld | st | ldi | sti | lea => exact encodePC9_of_fields hnibble
  case jsr =>
    split <;> rename_i hform
    · exact encode_jsr_of_fields hnibble hform
    · exact encode_jsrr_of_fields hnibble (Bool.eq_false_of_not_eq_true hform)
  case ldr | str | not =>
    rw [encode, bits_destinationRegister]
    exact encodeBASE6_of_fields hnibble
  case jmp => exact encodeBASE6_of_fields hnibble
  case rti => exact append_low_of_opcode (x := 0x8) h
  case res => exact append_low_of_opcode (x := 0xD) h
  case trap => exact (encode_decodeTrap _ _).trans (encodeTRAP_of_fields hnibble)

theorem wellFormed_decode (w : Word) : (decode w).wellFormed = true := by
  unfold decode
  cases opcode w <;> dsimp only
  case add | and | jsr => split <;> rfl
  case trap => exact wellFormed_decodeTrap _ _
  all_goals rfl

/-- Settles O2: no word decodes to an ill-formed term, and every field is kept. -/
theorem encodeOfDecodeIsIdentity : Obligations.EncodeOfDecodeIsIdentity :=
  fun w => ⟨wellFormed_decode w, encode_decode w⟩

/-! ### The opcode map -/

theorem opcode_decode (w : Word) : (decode w).opcode = opcode w := by
  rw [← opcode_encode, encode_decode]

/-- The entry of the opcode map at a nibble (R96). -/
theorem Opcode.getElem?_ofNibble : ∀ x : BitVec 4,
    ([.br, .add, .ld, .st, .jsr, .and, .ldr, .str, .rti, .not, .ldi, .sti, .jmp, .res, .lea, .trap] :
      List Opcode)[x.toNat]? = some (ofNibble x) := by decide

theorem toNat_extractLsb'_nibble (w : Word) : (w.extractLsb' 12 4).toNat = w.toNat / 4096 := by
  have hw := w.isLt
  rw [BitVec.extractLsb'_toNat, Nat.shiftRight_eq_div_pow]
  omega

/-- Settles O4: the opcode of a decoded word is that of its own word, and the map is read at the top nibble. -/
theorem opcodeMapOfTopNibble : Obligations.OpcodeMapOfTopNibble := fun w =>
  ⟨opcode_decode w, by rw [← toNat_extractLsb'_nibble, Opcode.getElem?_ofNibble, opcode]⟩

/-- Settles O5: each of the words is computed. -/
theorem specWordsDecode : Obligations.SpecWordsDecode := by
  unfold Obligations.SpecWordsDecode
  decide

/-! ### The opcode table -/

/-- The word of an instruction lies in the instruction's row (R100). -/
theorem row_covers_encode (i : Instr) : i.row.covers (encode i) = true := by
  cases i with
  | br n z p off => exact Laws.EncodesRow.br n z p off
  | addReg dr sr1 ign sr2 => exact Laws.EncodesRow.addReg dr sr1 ign sr2
  | addImm dr sr1 imm => exact Laws.EncodesRow.addImm dr sr1 imm
  | ld dr off => exact Laws.EncodesRow.ld dr off
  | st sr off => exact Laws.EncodesRow.st sr off
  | jsr off => exact Laws.EncodesRow.jsr off
  | jsrr ignHi base ignLo => exact Laws.EncodesRow.jsrr ignHi base ignLo
  | andReg dr sr1 ign sr2 => exact Laws.EncodesRow.andReg dr sr1 ign sr2
  | andImm dr sr1 imm => exact Laws.EncodesRow.andImm dr sr1 imm
  | ldr dr base off => exact Laws.EncodesRow.ldr dr base off
  | str sr base off => exact Laws.EncodesRow.str sr base off
  | not dr sr ign => exact Laws.EncodesRow.not dr sr ign
  | ldi dr off => exact Laws.EncodesRow.ldi dr off
  | sti sr off => exact Laws.EncodesRow.sti sr off
  | jmp ignHi base ignLo => exact Laws.EncodesRow.jmp ignHi base ignLo
  | lea dr off => exact Laws.EncodesRow.lea dr off
  | trapGetc ign => exact Laws.EncodesRow.trapGetc ign
  | trapOut ign => exact Laws.EncodesRow.trapOut ign
  | trapPuts ign => exact Laws.EncodesRow.trapPuts ign
  | trapIn ign => exact Laws.EncodesRow.trapIn ign
  | trapPutsp ign => exact Laws.EncodesRow.trapPutsp ign
  | trapHalt ign => exact Laws.EncodesRow.trapHalt ign
  | trapUnknown ign code => exact Laws.EncodesRow.trapUnknown ign code
  | rti ign => exact Laws.EncodesRow.rti ign
  | res ign => exact Laws.EncodesRow.res ign

/-- Whether two rows ask nothing of a word that contradicts one another. -/
def TableRow.agrees (r r' : TableRow) : Bool := r.value &&& r'.mask == r'.value &&& r.mask

theorem TableRow.agrees_of_covers {r r' : TableRow} {w : Word} (h : r.covers w = true)
    (h' : r'.covers w = true) : r.agrees r' = true := by
  simp only [covers, agrees, beq_iff_eq] at h h' ⊢
  rw [← h, ← h', BitVec.and_assoc, BitVec.and_assoc, BitVec.and_comm r.mask]

/-- Two rows of legal instructions that one word could lie in are the same row. -/
theorem eq_of_agrees_of_legal : ∀ r ∈ opcodeTable.take 22, ∀ r' ∈ opcodeTable.take 22,
    r.agrees r' = true → r = r' := by decide

/-- Nor do two of the three fatal rows. -/
theorem eq_of_agrees_of_fatal : ∀ r ∈ opcodeTable.drop 22, ∀ r' ∈ opcodeTable.drop 22,
    r.agrees r' = true → r = r' := by decide

/-- No legal row meets the two reserved ones. -/
theorem not_agrees_reserved : ∀ r ∈ opcodeTable.take 22,
    r.agrees ⟨"RTI__reserved", 0xF000, 0x8000⟩ = false ∧ r.agrees ⟨"RES__reserved", 0xF000, 0xD000⟩ = false := by
  decide

/-- The legal rows that meet the unrecognised-trap row are the six with a recognised code. -/
theorem trap_row_of_agrees : ∀ r ∈ opcodeTable.take 22,
    r.agrees ⟨"TRAP__unrecognised_code", 0xF000, 0xF000⟩ = true →
    r.mask = 0xF0FF ∧ ∃ c ∈ recognisedTrapCodes, r.value = 0xF0#8 ++ c := by decide

theorem recognised_of_legal_row_covers {r : TableRow} (hr : r ∈ opcodeTable.take 22) {ign : BitVec 4}
    {code : BitVec 8} (h : r.covers (encodeTRAP ign code) = true) : code ∈ recognisedTrapCodes := by
  obtain ⟨hmask, c, hc, hvalue⟩ := trap_row_of_agrees r hr
    (TableRow.agrees_of_covers h (row_covers_encode (.trapUnknown ign code)))
  have hcovers := Laws.EncodesRow.trap r.mnemonic ign code
  rw [TableRow.covers, hmask, hvalue, beq_iff_eq] at h
  rw [TableRow.covers, beq_iff_eq, h] at hcovers
  have hcode : c = code := by
    simpa only [BitVec.extractLsb'_append_eq_right] using congrArg (BitVec.extractLsb' 0 8) hcovers
  exact hcode ▸ hc

/-- A list's first element with a property, when there is just one such element. -/
theorem find?_eq_some_of_unique {α : Type} {l : List α} {p : α → Bool} {a : α} (ha : a ∈ l) (hp : p a = true)
    (h : ∀ b ∈ l, p b = true → b = a) : l.find? p = some a := by
  obtain ⟨b, hb⟩ := Option.isSome_iff_exists.mp (List.find?_isSome.mpr ⟨a, ha, hp⟩)
  rw [hb, h b (List.mem_of_find?_eq_some hb) (List.find?_some hb)]

/-- Whether an instruction is legal: its row is not one of the three fatal ones (R98). -/
def Instr.legal : Instr → Bool
  | .trapUnknown _ _ | .rti _ | .res _ => false
  | _ => true

theorem row_mem_of_legal {i : Instr} (h : i.legal = true) : i.row ∈ opcodeTable.take 22 := by
  cases i with
  | trapUnknown | rti | res => cases h
  | _ => simp [Instr.row, opcodeTable, opcodeTableLow, opcodeTableHigh, opcodeTableTrap]

theorem row_mem_of_not_legal {i : Instr} (h : i.legal = false) : i.row ∈ opcodeTable.drop 22 := by
  cases i with
  | trapUnknown | rti | res => simp [Instr.row, opcodeTable, opcodeTableLow, opcodeTableHigh, opcodeTableTrap]
  | _ => cases h

/-- The word of an illegal instruction lies in no legal row. -/
theorem not_covers_of_not_legal {i : Instr} (hi : i.wellFormed = true) (h : i.legal = false) {r : TableRow}
    (hr : r ∈ opcodeTable.take 22) : ¬ r.covers (encode i) = true := by
  intro hcovers
  have hagrees := TableRow.agrees_of_covers hcovers (row_covers_encode i)
  obtain ⟨hrti, hres⟩ := not_agrees_reserved r hr
  cases i with
  | trapUnknown ign code =>
    have hcode := recognised_of_legal_row_covers hr hcovers
    simp [Instr.wellFormed, isRecognisedTrapCode, hcode] at hi
  | rti ign => exact absurd (hrti.symm.trans hagrees) (by decide)
  | res ign => exact absurd (hres.symm.trans hagrees) (by decide)
  | _ => cases h

theorem find?_row {i : Instr} (hi : i.wellFormed = true) :
    opcodeTable.find? (fun r => r.covers (encode i)) = some i.row := by
  have hrow := row_covers_encode i
  rw [← List.take_append_drop 22 opcodeTable, List.find?_append]
  cases h : i.legal with
  | true =>
    rw [find?_eq_some_of_unique (row_mem_of_legal h) hrow fun r hr hcovers =>
      eq_of_agrees_of_legal r hr _ (row_mem_of_legal h) (TableRow.agrees_of_covers hcovers hrow)]
    rfl
  | false =>
    rw [List.find?_eq_none.mpr fun r hr => not_covers_of_not_legal hi h hr, Option.none_or]
    exact find?_eq_some_of_unique (row_mem_of_not_legal h) hrow fun r hr hcovers =>
      eq_of_agrees_of_fatal r hr _ (row_mem_of_not_legal h) (TableRow.agrees_of_covers hcovers hrow)

/-- Settles O3: two legal rows agree only if they are one, and a fatal row is met by no legal word. -/
theorem decodeFollowsOpcodeTable : Obligations.DecodeFollowsOpcodeTable :=
  ⟨fun w => by simpa only [encode_decode] using find?_row (wellFormed_decode w),
    fun _ r hr r' hr' h h' => eq_of_agrees_of_legal r hr r' hr' (TableRow.agrees_of_covers h h'), rfl⟩

/-- A legal row that covers a word is the row of its instruction. -/
theorem row_decode_of_covers {r : TableRow} (hr : r ∈ opcodeTable.take 22) {w : Word}
    (h : r.covers w = true) : (decode w).row = r := by
  have hrow := row_covers_encode (decode w)
  cases hlegal : (decode w).legal with
  | true =>
    rw [encode_decode] at hrow
    exact eq_of_agrees_of_legal _ (row_mem_of_legal hlegal) r hr (TableRow.agrees_of_covers hrow h)
  | false =>
    exact absurd ((encode_decode w).symm ▸ h) (not_covers_of_not_legal (wellFormed_decode w) hlegal hr)

end Sys2Proof
end

section
/-! PROOFS. The bits that an instruction ignores (R94): the classic value in them gives the word of the same
instruction. -/

namespace Sys2Proof

/-! ### The classic value in the ignored bits (R94) -/

theorem encodeOPR_clear_ign (op : BitVec 4) (dr sr1 : Reg) (ign : BitVec 2) (sr2 : Reg) :
    encodeOPR op dr sr1 ign sr2 &&& 0xFFE7 = encodeOPR op dr sr1 0 sr2 := by
  refine BitVec.eq_of_getLsbD_eq fun k hk => ?_
  rw [BitVec.getLsbD_and, getLsbD_encodeOPR, getLsbD_encodeOPR]
  interval_cases k <;> simp

theorem encodeBASE6_set_low (op : BitVec 4) (hi base : BitVec 3) (lo : BitVec 6) :
    encodeBASE6 op hi base lo ||| 0x003F = encodeBASE6 op hi base 0x3F := by
  refine BitVec.eq_of_getLsbD_eq fun k hk => ?_
  rw [BitVec.getLsbD_or, getLsbD_encodeBASE6, getLsbD_encodeBASE6]
  interval_cases k <;> simp

theorem encodeBASE6_clear_high_low (op : BitVec 4) (hi base : BitVec 3) (lo : BitVec 6) :
    encodeBASE6 op hi base lo &&& 0xF1C0 = encodeBASE6 op 0 base 0 := by
  refine BitVec.eq_of_getLsbD_eq fun k hk => ?_
  rw [BitVec.getLsbD_and, getLsbD_encodeBASE6, getLsbD_encodeBASE6]
  interval_cases k <;> simp

theorem encode_jsrr_clear_ign (ignHi : BitVec 2) (base : Reg) (ignLo : BitVec 6) :
    encode (.jsrr ignHi base ignLo) &&& 0xF9C0 = encode (.jsrr 0 base 0) := by
  refine BitVec.eq_of_getLsbD_eq fun k hk => ?_
  rw [BitVec.getLsbD_and, encode, encode]
  simp only [BitVec.getLsbD_append]
  interval_cases k <;> simp

theorem encodeTRAP_clear_ign (ign : BitVec 4) (code : BitVec 8) :
    encodeTRAP ign code &&& 0xF0FF = encodeTRAP 0 code := by
  refine BitVec.eq_of_getLsbD_eq fun k hk => ?_
  rw [BitVec.getLsbD_and, getLsbD_encodeTRAP, getLsbD_encodeTRAP]
  interval_cases k <;> simp

/-! ### What a word decodes to, from its opcode -/

theorem decode_of_trap {w : Word} (h : opcode w = .trap) :
    decode w = decodeTrap (w.extractLsb' 8 4) (w.extractLsb' 0 8) := by
  simp only [decode, h, trapCode]

theorem decode_of_add {w : Word} (h : opcode w = .add) (hmode : w.getLsbD 5 = false) :
    ∃ dr sr1 ign sr2, decode w = .addReg dr sr1 ign sr2 :=
  ⟨_, _, _, _, by simp only [decode, h, isImmediateMode, hmode, Bool.false_eq_true, if_false]; rfl⟩

theorem decode_of_and {w : Word} (h : opcode w = .and) (hmode : w.getLsbD 5 = false) :
    ∃ dr sr1 ign sr2, decode w = .andReg dr sr1 ign sr2 :=
  ⟨_, _, _, _, by simp only [decode, h, isImmediateMode, hmode, Bool.false_eq_true, if_false]; rfl⟩

theorem decode_of_not {w : Word} (h : opcode w = .not) : ∃ dr sr ign, decode w = .not dr sr ign :=
  ⟨_, _, _, by simp only [decode, h]; rfl⟩

theorem decode_of_jmp {w : Word} (h : opcode w = .jmp) : ∃ ignHi base ignLo, decode w = .jmp ignHi base ignLo :=
  ⟨_, _, _, by simp only [decode, h]; rfl⟩

theorem decode_of_jsrr {w : Word} (h : opcode w = .jsr) (hform : w.getLsbD 11 = false) :
    ∃ ignHi base ignLo, decode w = .jsrr ignHi base ignLo :=
  ⟨_, _, _, by simp only [decode, h, isPcRelativeCall, hform, Bool.false_eq_true, if_false]; rfl⟩

theorem eq_encode_of_decode_eq {w : Word} {i : Instr} (h : decode w = i) : w = encode i :=
  h ▸ (encode_decode w).symm

end Sys2Proof

namespace Sys2Proof.Machine

/-- Where GETC and IN do not fault, the word a fault would record is not seen. -/
theorem State.readCharacter_congr_word {s : State} (h : s.input.upcoming = [] → s.input.ended = false)
    (prompt : List Byte) (echo : Bool) (w w' : Word) :
    s.readCharacter prompt echo w = s.readCharacter prompt echo w' := by
  unfold State.readCharacter
  obtain ⟨k, ks, -, hin⟩ | ⟨hu, he, -⟩ | ⟨-, -, hin⟩ := s.input.inByte_cases
  · rw [hin]
  · exact absurd ((h hu).symm.trans he) (by decide)
  · rw [hin]

/-- The ignored bits of a TRAP with a recognised code. -/
theorem exec_decodeTrap_ign {s : State} (h : s.input.upcoming = [] → s.input.ended = false)
    (ign ign' : BitVec 4) {code : BitVec 8} (hcode : code ∈ recognisedTrapCodes) :
    exec (decodeTrap ign code) s = exec (decodeTrap ign' code) s := by
  simp only [recognisedTrapCodes, List.mem_cons, List.not_mem_nil, or_false] at hcode
  obtain rfl | rfl | rfl | rfl | rfl | rfl := hcode
  case inl | inr.inr.inr.inl => exact congrArg Host.Outcome.next (State.readCharacter_congr_word h _ _ _ _)
  all_goals rfl

/-- A change `f` of a word's bits that gives the word of an instruction with the same meaning changes nothing
the word does. -/
theorem exec_decode_congr (f : Word → Word) {w : Word} {i i' : Instr} {s : State} (hw : decode w = i)
    (hf : f (encode i) = encode i') (hi' : i'.wellFormed = true) (h : exec i s = exec i' s) :
    exec (decode w) s = exec (decode (f w)) s := by
  rw [hw, eq_encode_of_decode_eq hw, hf, decode_encode hi', h]

/-- Settles O6: clearing or setting the ignored bits of a word gives the word of the same instruction with
other ignored bits, which `exec` does not read. -/
theorem ignoredBitsChangeNothing : Obligations.IgnoredBitsChangeNothing := by
  refine fun w s => ⟨fun hop hmode => ?_, fun hop => ?_, fun hop => ?_, fun hop hform => ?_,
    fun hop hcode hinput => ?_⟩
  · obtain hop | hop := hop
    · obtain ⟨dr, sr1, ign, sr2, hw⟩ := decode_of_add hop hmode
      exact exec_decode_congr (· &&& 0xFFE7) (i' := .addReg dr sr1 0 sr2) hw
        (encodeOPR_clear_ign _ dr sr1 ign sr2) rfl rfl
    · obtain ⟨dr, sr1, ign, sr2, hw⟩ := decode_of_and hop hmode
      exact exec_decode_congr (· &&& 0xFFE7) (i' := .andReg dr sr1 0 sr2) hw
        (encodeOPR_clear_ign _ dr sr1 ign sr2) rfl rfl
  · obtain ⟨dr, sr, ign, hw⟩ := decode_of_not hop
    exact exec_decode_congr (· ||| 0x003F) (i' := .not dr sr 0x3F) hw
      (encodeBASE6_set_low _ dr.bits sr.bits ign) rfl rfl
  · obtain ⟨ignHi, base, ignLo, hw⟩ := decode_of_jmp hop
    exact exec_decode_congr (· &&& 0xF1C0) (i' := .jmp 0 base 0) hw
      (encodeBASE6_clear_high_low _ ignHi base.bits ignLo) rfl rfl
  · obtain ⟨ignHi, base, ignLo, hw⟩ := decode_of_jsrr hop hform
    exact exec_decode_congr (· &&& 0xF9C0) (i' := .jsrr 0 base 0) hw
      (encode_jsrr_clear_ign ignHi base ignLo) rfl rfl
  · refine exec_decode_congr (· &&& 0xF0FF) (i' := decodeTrap 0 (w.extractLsb' 0 8)) (decode_of_trap hop) ?_
      (wellFormed_decodeTrap _ _) (exec_decodeTrap_ign hinput _ _ hcode)
    rw [encode_decodeTrap, encode_decodeTrap]
    exact encodeTRAP_clear_ign _ _

end Sys2Proof.Machine
end

section
/-! PROOFS. The keyboard poll (R61), the fetch (R121), and what a fetch sees of a store (R75) and of a placed
word. -/

namespace Sys2Proof.Machine

/-! ### The keyboard poll -/

theorem zext_eq_ofNat (b : Byte) : zext b = BitVec.ofNat 16 b.toNat :=
  BitVec.eq_of_toNat_eq (by simp [zext])

/-- The poll of R61 changes the two keyboard cells and the input only. -/
theorem State.keyboardPoll_frame (s : State) :
    SameCellsBut [s.params.kbsrAddr, s.params.kbdrAddr] s s.keyboardPoll ∧ SameRegsBut [] s s.keyboardPoll ∧
    s.keyboardPoll.pc = s.pc ∧ s.keyboardPoll.cond = s.cond ∧ s.keyboardPoll.output = s.output ∧
    SameRun s s.keyboardPoll := by
  refine ⟨fun a ha => ?_, fun q _ => ?_, s.keyboardPoll_pc, s.keyboardPoll_cond, s.keyboardPoll_output,
    s.keyboardPoll_status, s.keyboardPoll_params⟩
  · simp only [List.mem_cons, List.not_mem_nil, or_false, not_or] at ha
    exact s.keyboardPoll_cell_of_ne a ha.1 ha.2
  · rw [State.reg, State.keyboardPoll_regs, State.reg]

/-- A poll that finds a byte ready (R61). -/
theorem State.keyboardPoll_of_some {s : State} {b : Byte} {i : Input} (h : s.input.poll = (some b, i)) :
    s.keyboardPoll =
      ((s.setInput i).setCell s.params.kbsrAddr 0x8000).setCell s.params.kbdrAddr (zext b) := by
  simp only [State.keyboardPoll, h]

/-- A poll that finds none (R61). -/
theorem State.keyboardPoll_of_none {s : State} {i : Input} (h : s.input.poll = (none, i)) :
    s.keyboardPoll = (s.setInput i).setCell s.params.kbsrAddr 0x0000 := by
  simp only [State.keyboardPoll, h]

theorem Input.poll_of_ready {i : Input} {b : Byte} {ks : List Keystroke} (h : i.upcoming = ⟨b, 0⟩ :: ks) :
    i.poll = (some b, { i with keys := ks }) := by simp only [Input.poll, h]

theorem Input.poll_of_notReady {i : Input} {b : Byte} {n : Nat} {ks : List Keystroke}
    (h : i.upcoming = ⟨b, n + 1⟩ :: ks) : i.poll = (none, { i with keys := ⟨b, n⟩ :: ks }) := by
  simp only [Input.poll, h]

theorem Input.poll_of_upcoming_nil {i : Input} (h : i.upcoming = []) : i.poll = (none, i) := by
  simp only [Input.poll, h]

/-- A poll that finds no byte ready leaves the data cell, which is another cell than the status cell (R13). -/
theorem State.keyboardPoll_leaves_data {s : State} {i : Input} (h : s.input.poll = (none, i))
    (hne : s.params.kbdrAddr ≠ s.params.kbsrAddr) :
    s.keyboardPoll.cell s.params.kbsrAddr = 0 ∧
    s.keyboardPoll.cell s.params.kbdrAddr = s.cell s.params.kbdrAddr := by
  rw [State.keyboardPoll_of_none h, State.cell_setCell_same, State.cell_setCell, if_neg hne]
  exact ⟨rfl, rfl⟩

/-- Settles O11: the three answers of the availability check, and what each lets the poll write. -/
theorem statusReadPollsKeyboard : Obligations.StatusReadPollsKeyboard := by
  intro s hne
  rw [s.memRead_of_eq rfl]
  refine ⟨fun b ks hup => ?_, fun b n ks hup => ?_, fun hup => ?_, s.keyboardPoll_frame⟩
  · have hpoll := Input.poll_of_ready hup
    have hstatus : s.keyboardPoll.cell s.params.kbsrAddr = 0x8000 := by
      rw [State.keyboardPoll_of_some hpoll, State.cell_setCell, if_neg hne.symm, State.cell_setCell_same]
    have hdata : s.keyboardPoll.cell s.params.kbdrAddr = BitVec.ofNat 16 b.toNat := by
      rw [State.keyboardPoll_of_some hpoll, State.cell_setCell_same, zext_eq_ofNat]
    exact ⟨hstatus, hstatus, hdata, by rw [State.keyboardPoll_input, hpoll]⟩
  · have hpoll := Input.poll_of_notReady hup
    obtain ⟨hstatus, hdata⟩ := State.keyboardPoll_leaves_data hpoll hne
    exact ⟨hstatus, hstatus, hdata, by rw [State.keyboardPoll_input, hpoll]⟩
  · have hpoll := Input.poll_of_upcoming_nil hup
    obtain ⟨hstatus, hdata⟩ := State.keyboardPoll_leaves_data hpoll hne
    exact ⟨hstatus, hstatus, hdata, by rw [State.keyboardPoll_input, hpoll]⟩

/-! ### The fetch -/

/-- Settles O14: the fetch is one `MemRead` and one write of PC, on a PC of 16 bits. -/
theorem fetchReadsAndAdvances : Obligations.FetchReadsAndAdvances :=
  fun s => ⟨s.fetch_word, by rw [State.fetch_pc, BitVec.toNat_add]; rfl, rfl⟩

theorem State.fetch_of_ne {s : State} (h : s.pc ≠ s.params.kbsrAddr) :
    s.fetch = (s.cell s.pc, s.setPc (s.pc + 1)) := by
  rw [State.fetch, State.memRead_of_ne s s.pc h]

/-- A store away from the status cell is what a fetch at its cell reads. -/
theorem StoreLeaves.fetch_eq {s r t : State} {ea v : Word} (h : StoreLeaves s ea v r t)
    (hea : ea ≠ s.params.kbsrAddr) : (t.setPc ea).fetch.1 = v := by
  obtain ⟨hcell, -, -, -, -, -, -, -, hparams⟩ := h
  rw [State.fetch_of_ne (by simpa [hparams] using hea)]
  exact hcell

/-- Settles O13: each of the three stores leaves what `StoreLeaves` says at the address it computes. -/
theorem storesAreSeenByFetch : Obligations.StoresAreSeenByFetch := by
  intro s t sr base off off6 i ea hi hstore hea h
  simp only [List.mem_cons, List.not_mem_nil, or_false] at hi
  obtain rfl | rfl | rfl := hi
  · obtain rfl := Option.some.inj hstore
    obtain rfl := Host.Outcome.next.inj ((exec_st sr off s).symm.trans h)
    exact (storeLeaves_memWrite s _ _).fetch_eq hea
  · obtain rfl := Option.some.inj hstore
    obtain rfl := Host.Outcome.next.inj ((exec_sti sr off s).symm.trans h)
    exact (storeLeaves_memWrite _ _ _).of_memRead.fetch_eq hea
  · obtain rfl := Option.some.inj hstore
    obtain rfl := Host.Outcome.next.inj ((exec_str sr base off6 s).symm.trans h)
    exact (storeLeaves_memWrite s _ _).fetch_eq hea

/-- Settles O59: the placed word stands at PC, where a fetch away from KBSR_ADDR reads it without a poll. -/
theorem placedWordIsTheOneThatRuns : Obligations.PlacedWordIsTheOneThatRuns := by
  intro s w hpc
  have hword : BitVec.ofNat 16 (w % 2 ^ 16) = BitVec.ofNat 16 w := BitVec.eq_of_toNat_eq (by simp)
  refine ⟨congrArg (some ∘ decode) hword, ?_, sameCellsBut_memWrite s s.pc _, fun q _ => rfl, ⟨rfl, rfl⟩,
    rfl, rfl⟩
  have hread := State.memRead_of_ne (s.withFetchWord 16 w) s.pc hpc
  have hcell : (s.withFetchWord 16 w).cell s.pc = BitVec.ofNat 16 w := (s.cell_setCell_same s.pc _).trans hword
  rw [step_of_status_running rfl, show (s.withFetchWord 16 w).pc = s.pc from rfl, hread, hcell]

end Sys2Proof.Machine
end

section
/-! PROOFS. What any instruction can do (R32, R36, R38, R69): the operations it may use, one by one, and how its
step can answer. The statements about all instructions are inductions over these operations. -/

namespace Sys2Proof

/-- Whether an instruction makes a memory read of its own, beyond the fetch (R63). -/
def Instr.readsMemory : Instr → Bool
  | .ld _ _ | .ldi _ _ | .ldr _ _ _ | .sti _ _ | .trapPuts _ | .trapPutsp _ => true
  | _ => false

/-- The bytes an instruction writes before it takes a character (R222). -/
def Instr.prompt (p : Params) : Instr → List Byte
  | .trapIn _ => p.inPrompt
  | _ => []

end Sys2Proof

namespace Sys2Proof.Machine

/-! ### The operations an instruction may use -/

/-- `Touches i s t`: from `s`, operations that instruction `i` may use lead to `t`. It reads memory, writes output
and takes input; a register, COND, a cell and PC it writes only where the spec's tables list it. -/
inductive Touches (i : Instr) (s : State) : State → Prop where
  | refl : Touches i s s
  | read {r : State} (a : Word) : i.readsMemory = true → Touches i s r → Touches i s (r.memRead a).2
  | out {r : State} (bs : List Byte) : Touches i s r → Touches i s (r.out bs)
  | take {r : State} {k : Keystroke} {ks : List Keystroke} : r.input.upcoming = k :: ks → Touches i s r →
      Touches i s (r.setInput { r.input with keys := ks })
  | setReg {r : State} {q : Reg} (v : Word) : q ∈ i.writes s.params → Touches i s r →
      Touches i s (r.setReg q v)
  | setCond {r : State} (c : Cond) : i.condFrom s.params ≠ none → Touches i s r → Touches i s (r.setCond c)
  | store {r : State} {a : Word} (v : Word) : storeAddress s i = some a → Touches i s r →
      Touches i s (r.memWrite a v)
  | setPc {r : State} (v : Word) : i.isTransfer = true → Touches i s r → Touches i s (r.setPc v)

/-- Why an instruction faults (R213, R216, R230, R231). -/
inductive FaultCause (s : State) : Instr → Fault → Prop where
  | rti (ign : BitVec 12) : FaultCause s (.rti ign) .reservedOpcode
  | res (ign : BitVec 12) : FaultCause s (.res ign) .reservedOpcode
  | trapUnknown (ign : BitVec 4) (code : BitVec 8) : FaultCause s (.trapUnknown ign code) .unknownTrapCode
  | trapGetc (ign : BitVec 4) : s.input.upcoming = [] → s.input.ended = true →
      FaultCause s (.trapGetc ign) .inputExhausted
  | trapIn (ign : BitVec 4) : s.input.upcoming = [] → s.input.ended = true →
      FaultCause s (.trapIn ign) .inputExhausted

/-- How an instruction can end: it completes, it halts, it faults, or it has no outcome and the run stays. -/
inductive Answers (i : Instr) (s : State) : State → Prop where
  | completes {t : State} : Touches i s t → Answers i s t
  | halts {ign : BitVec 4} {t : State} : i = .trapHalt ign → Touches i s t → Answers i s (t.setStatus .halted)
  | faults {f : Fault} : FaultCause s i f →
      Answers i s ((s.out (i.prompt s.params)).raiseFault f (encode i))
  | stays : i.opcode = .trap → Answers i s s.stepNotTaken

variable {i : Instr} {s r t : State}

/-- `write_and_update` is a register write and a write of COND (R37). -/
theorem Touches.writeAndUpdate {q : Reg} (v : Word) (hw : q ∈ i.writes s.params)
    (hc : i.condFrom s.params ≠ none) (h : Touches i s r) : Touches i s (r.writeAndUpdate q v) :=
  (h.setReg v hw).setCond _ hc

/-- A load is a memory read and a `write_and_update`. -/
theorem Touches.loadInto {q : Reg} (a : Word) (hr : i.readsMemory = true) (hw : q ∈ i.writes s.params)
    (hc : i.condFrom s.params ≠ none) (h : Touches i s r) : Touches i s (r.loadInto q a) :=
  (h.read a hr).writeAndUpdate _ hw hc

/-- The link of a TRAP that the spec's table lets write R7. -/
theorem Touches.trapLink (h : s.params.linked ⊆ i.writes s.params) : Touches i s s.trapLink := by
  unfold State.trapLink
  cases hl : s.params.trapLinksR7 with
  | true => exact Touches.refl.setReg _ (h (by simp [Params.linked, hl]))
  | false => exact .refl

/-- The loop of PUTS and PUTSP reads memory and writes output. -/
theorem Touches.scanString {bytes : Word → List Byte} {n : Nat} {a : Word} (hi : i.readsMemory = true)
    (h : Touches i s r) (hscan : scanString bytes n a r = some t) : Touches i s t :=
  scanString_keeps bytes (Touches i s) (fun _ b hu => hu.read b hi) (fun _ bs hu => hu.out bs) n a r t h hscan

theorem answers_writeString (bytes : Word → List Byte) (hop : i.opcode = .trap) (hi : i.readsMemory = true)
    (h : s.params.linked ⊆ i.writes s.params) : Answers i s (s.writeString bytes) := by
  obtain ⟨t, hscan, hend⟩ | ⟨-, hend⟩ := s.writeString_cases bytes
  · exact hend ▸ .completes ((Touches.trapLink h).scanString hi hscan)
  · exact hend ▸ .stays hop

theorem answers_readCharacter (echo : Bool) (hop : i.opcode = .trap)
    (hw : i.writes s.params = .r0 :: s.params.linked) (hc : i.condFrom s.params ≠ none)
    (hf : s.input.upcoming = [] → s.input.ended = true → FaultCause s i .inputExhausted) :
    Answers i s (s.readCharacter (i.prompt s.params) echo (encode i)) := by
  obtain ⟨k, ks, hup, hend⟩ | ⟨hup, hended, hend⟩ | ⟨-, -, hend⟩ :=
    s.readCharacter_cases (i.prompt s.params) echo (encode i)
  · have hlink : Touches i s s.trapLink := Touches.trapLink (by rw [hw]; exact List.subset_cons_self _ _)
    have htake := (hlink.out (i.prompt s.params)).take (k := k) (ks := ks) (by simpa using hup)
    rw [State.out_input, State.trapLink_input] at htake
    exact hend ▸ .completes ((htake.out _).writeAndUpdate _ (by simp [hw]) hc)
  · exact hend ▸ .faults (hf hup hended)
  · exact hend ▸ .stays hop

theorem State.out_nil (s : State) : s.out [] = s := by simp [State.out]

/-- A fault of an instruction that writes no prompt. -/
theorem FaultCause.answers_raiseFault {f : Fault} (h : FaultCause s i f) (hp : i.prompt s.params = []) :
    Answers i s (s.raiseFault f (encode i)) := by
  have hanswer := Answers.faults h
  rwa [hp, State.out_nil] at hanswer

/-- Every instruction answers a next state, in one of the four ways. -/
theorem exec_answers (i : Instr) (s : State) : ∃ t, exec i s = .next t ∧ Answers i s t := by
  cases i with
  | br n z p off =>
    by_cases h : s.cond.matchesMask n z p = true
    · exact ⟨_, exec_br_of_matchesMask off h, .completes (Touches.refl.setPc _ rfl)⟩
    · exact ⟨_, exec_br_of_not_matchesMask off h, .completes .refl⟩
  | jmp ignHi base ignLo => exact ⟨_, rfl, .completes (Touches.refl.setPc _ rfl)⟩
  | jsr off => exact ⟨_, rfl, .completes ((Touches.refl.setReg _ (by simp [Instr.writes])).setPc _ rfl)⟩
  | jsrr ignHi base ignLo =>
    exact ⟨_, exec_jsrr .., .completes ((Touches.refl.setReg _ (by simp [Instr.writes])).setPc _ rfl)⟩
  | addReg | addImm | andReg | andImm | not =>
    exact ⟨_, rfl, .completes (Touches.refl.writeAndUpdate _ (by simp [Instr.writes]) (by simp [Instr.condFrom]))⟩
  | lea dr off =>
    by_cases h : s.params.leaSetsCc = true
    · exact ⟨_, exec_lea_of_leaSetsCc dr off h, .completes
        (Touches.refl.writeAndUpdate _ (by simp [Instr.writes]) (by simp [Instr.condFrom, h]))⟩
    · exact ⟨_, exec_lea_of_not_leaSetsCc dr off h, .completes
        (Touches.refl.setReg _ (by simp [Instr.writes]))⟩
  | ld | ldr =>
    exact ⟨_, rfl, .completes (Touches.refl.loadInto _ rfl (by simp [Instr.writes]) (by simp [Instr.condFrom]))⟩
  | ldi dr off =>
    exact ⟨_, rfl, .completes
      ((Touches.refl.read _ rfl).loadInto _ rfl (by simp [Instr.writes]) (by simp [Instr.condFrom]))⟩
  | st | str => exact ⟨_, rfl, .completes (Touches.refl.store _ rfl)⟩
  | sti sr off => exact ⟨_, rfl, .completes ((Touches.refl.read _ rfl).store _ rfl)⟩
  | trapGetc ign =>
    exact ⟨_, rfl, answers_readCharacter (i := .trapGetc ign) false rfl rfl (by simp [Instr.condFrom]) (.trapGetc ign)⟩
  | trapIn ign =>
    exact ⟨_, rfl, answers_readCharacter (i := .trapIn ign) true rfl rfl (by simp [Instr.condFrom]) (.trapIn ign)⟩
  | trapOut ign => exact ⟨_, rfl, .completes ((Touches.trapLink (List.Subset.refl _)).out _)⟩
  | trapHalt ign => exact ⟨_, rfl, .halts rfl ((Touches.trapLink (List.Subset.refl _)).out _)⟩
  | trapPuts ign | trapPutsp ign => exact ⟨_, rfl, answers_writeString _ rfl rfl (List.Subset.refl _)⟩
  | trapUnknown ign code => exact ⟨_, rfl, (FaultCause.trapUnknown ign code).answers_raiseFault rfl⟩
  | rti ign => exact ⟨_, rfl, (FaultCause.rti ign).answers_raiseFault rfl⟩
  | res ign => exact ⟨_, rfl, (FaultCause.res ign).answers_raiseFault rfl⟩

/-- What an instruction has answered is one of the four ways. -/
theorem answers_of_exec (h : exec i s = .next t) : Answers i s t := by
  obtain ⟨u, hu, hanswers⟩ := exec_answers i s
  exact Host.Outcome.next.inj (hu.symm.trans h) ▸ hanswers

/-- A step from a Running state is an answer of the word it fetched. -/
theorem answers_of_step (hrun : s.status = .running) (h : step s = .next t) :
    Answers (decode (s.memRead s.pc).1) s.fetch.2 t :=
  answers_of_exec ((step_of_status_running hrun).symm.trans h)

/-! ### What the operations keep -/

theorem Touches.params (h : Touches i s t) : t.params = s.params := by
  induction h with
  | refl => rfl
  | _ => simpa

theorem Touches.status (h : Touches i s t) : t.status = s.status := by
  induction h with
  | refl => rfl
  | _ => simpa

theorem Touches.wf (h : Touches i s t) (hs : s.mem.wf = true) : t.mem.wf = true := by
  induction h with
  | refl => exact hs
  | read a _ _ ih => exact State.memRead_wf _ a ih
  | store v _ _ ih => exact State.memWrite_wf _ _ v ih
  | _ => simpa

theorem Touches.output (h : Touches i s t) : ∃ bs, t.output = s.output ++ bs := by
  induction h with
  | refl => exact ⟨[], by simp⟩
  | out bs _ ih =>
    obtain ⟨cs, hcs⟩ := ih
    exact ⟨cs ++ bs, by simp [hcs]⟩
  | _ => simpa

theorem Touches.reg (h : Touches i s t) : SameRegsBut (i.writes s.params) s t := by
  intro q hq
  induction h with
  | refl => rfl
  | setReg v hw _ ih => rw [State.reg_setReg, if_neg (by rintro rfl; exact hq hw), ih]
  | _ => simpa

theorem Touches.pc (h : Touches i s t) (hi : i.isTransfer = false) : t.pc = s.pc := by
  induction h with
  | refl => rfl
  | setPc v htransfer => exact absurd (hi.symm.trans htransfer) (by decide)
  | _ => simpa

theorem Touches.cond (h : Touches i s t) (hi : i.condFrom s.params = none) : t.cond = s.cond := by
  induction h with
  | refl => rfl
  | setCond c hc => exact absurd hi hc
  | _ => simpa

/-- Beyond its store, only a memory read of its own lets an instruction change a cell, and then a keyboard
cell. -/
theorem Touches.cell (h : Touches i s t) {a : Word} (ha : storeAddress s i ≠ some a)
    (hread : i.readsMemory = true → a ≠ s.params.kbsrAddr ∧ a ≠ s.params.kbdrAddr) : t.cell a = s.cell a := by
  induction h with
  | refl => rfl
  | read b hi hr ih =>
    obtain ⟨hkbsr, hkbdr⟩ := hread hi
    rw [← hr.params] at hkbsr hkbdr
    rw [State.memRead_cell_of_ne _ b a hkbsr hkbdr, ih]
  | store v hstore _ ih => rw [State.cell_memWrite, if_neg (by rintro rfl; exact ha hstore), ih]
  | _ => simpa

/-! ### The input -/

/-- `i'` is what is left of `i` when its first bytes are taken, the end of input being as it was (R49). -/
def Input.LeftOf (i i' : Input) : Prop := i'.ended = i.ended ∧ ∃ k, ∀ n, i'.nth n = i.nth (n + k)

theorem Input.LeftOf.refl (i : Input) : i.LeftOf i := ⟨rfl, 0, fun _ => rfl⟩

theorem Input.LeftOf.trans {i j l : Input} (h : i.LeftOf j) (h' : j.LeftOf l) : i.LeftOf l := by
  obtain ⟨hended, k, hk⟩ := h
  obtain ⟨hended', k', hk'⟩ := h'
  exact ⟨hended'.trans hended, k' + k, fun n => by rw [hk', hk, Nat.add_assoc]⟩

theorem Input.leftOf_take {i : Input} {k : Keystroke} {ks : List Keystroke} (h : i.upcoming = k :: ks) :
    i.LeftOf { i with keys := ks } := ⟨rfl, 1, fun n => (i.nth_succ k ks h n).symm⟩

theorem Input.leftOf_poll (i : Input) : i.LeftOf i.poll.2 := by
  obtain ⟨-, h⟩ | ⟨b, ks, hup, h⟩ | ⟨b, n, ks, hup, h⟩ := i.poll_cases <;> rw [h]
  · exact .refl i
  · exact Input.leftOf_take hup
  · exact ⟨rfl, 0, fun m => i.nth_notReady b (n + 1) n ks hup m⟩

theorem State.leftOf_memRead (s : State) (a : Word) : s.input.LeftOf (s.memRead a).2.input := by
  obtain ⟨-, h⟩ | ⟨-, h⟩ := s.memRead_cases a <;> rw [h]
  · exact .refl _
  · rw [State.keyboardPoll_input]
    exact s.input.leftOf_poll

theorem Touches.input (h : Touches i s t) : s.input.LeftOf t.input := by
  induction h with
  | refl => exact .refl _
  | read a _ _ ih => exact ih.trans (State.leftOf_memRead _ a)
  | take hup _ ih => exact ih.trans (Input.leftOf_take hup)
  | _ => simpa

end Sys2Proof.Machine
end

section
/-! PROOFS. The rules about all instructions and all steps: what an instruction changes, and what a step keeps
whatever it runs. -/

namespace Sys2Proof.Machine

variable {i : Instr} {s t : State}

/-! ### One instruction -/

/-- An instruction reaches its next state by its operations, but for the run status, or has no outcome yet. -/
theorem Answers.touches (h : Answers i s t) :
    (∃ u x, Touches i s u ∧ t = u.setStatus x) ∨ (i.opcode = .trap ∧ t = s.stepNotTaken) := by
  cases h with
  | completes h => exact .inl ⟨t, t.status, h, rfl⟩
  | halts _ h => exact .inl ⟨_, _, h, rfl⟩
  | faults _ => exact .inl ⟨_, _, Touches.refl.out _, rfl⟩
  | stays hop => exact .inr ⟨hop, rfl⟩

/-- Settles O24: a register write is one of the operations, and a step that is not taken writes none. -/
theorem registersKeepTheirValues : Obligations.RegistersKeepTheirValues := by
  intro i s t h
  obtain ⟨u, x, hu, rfl⟩ | ⟨-, rfl⟩ := (answers_of_exec h).touches
  · exact hu.reg
  · exact fun q _ => s.reg_stepNotTaken q

/-- Settles O25: a write of PC is one of the operations, but for a TRAP that has no outcome. -/
theorem pcIsWrittenByTransfersOnly : Obligations.PcIsWrittenByTransfersOnly := by
  intro i s t h hi
  obtain ⟨u, x, hu, rfl⟩ | hstays := (answers_of_exec h).touches
  · exact .inl (hu.pc hi)
  · exact .inr hstays

theorem Answers.cell (h : Answers i s t) {a : Word} (ha : storeAddress s i ≠ some a)
    (hread : i.readsMemory = true → a ≠ s.params.kbsrAddr ∧ a ≠ s.params.kbdrAddr) : t.cell a = s.cell a := by
  obtain ⟨u, x, hu, rfl⟩ | ⟨-, rfl⟩ := h.touches
  · exact hu.cell ha hread
  · exact s.cell_stepNotTaken a

/-- Settles O26: a store and a memory read are the only operations that change a cell, and of the instructions
outside the list none reads memory. -/
theorem memoryKeepsItsContent : Obligations.MemoryKeepsItsContent := by
  intro i s t h
  refine ⟨fun a ha hkbsr hkbdr => (answers_of_exec h).cell ha fun _ => ⟨hkbsr, hkbdr⟩,
    fun hlist a ha => (answers_of_exec h).cell ha fun hi => ?_⟩
  cases i with
  | ld | ldi | ldr | sti | trapPuts | trapPutsp => exact hlist.elim
  | _ => cases hi

/-- GETC and IN set COND from R0 when they take a byte, and not at all when there is none. -/
theorem State.readCharacter_cond (s : State) (prompt : List Byte) (echo : Bool) (w : Word) :
    (∃ u v, s.readCharacter prompt echo w = State.writeAndUpdate u .r0 v) ∨
    (s.input.upcoming = [] ∧ (s.readCharacter prompt echo w).cond = s.cond) := by
  obtain ⟨k, ks, -, hend⟩ | ⟨hup, -, hend⟩ | ⟨hup, -, hend⟩ := s.readCharacter_cases prompt echo w
  · exact .inl ⟨_, _, hend⟩
  · exact .inr ⟨hup, by rw [hend, State.raiseFault_cond, State.out_cond]⟩
  · exact .inr ⟨hup, by rw [hend, State.stepNotTaken_cond]⟩

/-- An instruction that sets COND does so last, from the register it has just written; GETC and IN with no byte
left do not get so far. -/
theorem exec_of_condFrom {r : Reg} (h : i.condFrom s.params = some r) :
    (∃ u v, exec i s = .next (State.writeAndUpdate u r v)) ∨
    (i.opcode = .trap ∧ s.input.upcoming = [] ∧ ∃ t, exec i s = .next t ∧ t.cond = s.cond) := by
  cases i with
  | addReg | addImm | andReg | andImm | not | ld | ldi | ldr =>
    cases h
    exact .inl ⟨_, _, rfl⟩
  | lea dr off =>
    by_cases hcc : s.params.leaSetsCc = true
    · obtain rfl : dr = r := by simpa [Instr.condFrom, hcc] using h
      exact .inl ⟨_, _, exec_lea_of_leaSetsCc dr off hcc⟩
    · simp [Instr.condFrom, hcc] at h
  | trapGetc ign | trapIn ign =>
    cases h
    obtain ⟨u, v, hend⟩ | ⟨hup, hcond⟩ := s.readCharacter_cond _ _ _
    · exact .inl ⟨u, v, congrArg Host.Outcome.next hend⟩
    · exact .inr ⟨rfl, hup, _, rfl, hcond⟩
  | _ => cases h

/-- Settles O23: no operation of the other instructions writes COND, and those of the list end in a
`write_and_update`. -/
theorem condChangesOnlyWithAWrite : Obligations.CondChangesOnlyWithAWrite := by
  refine fun i s t h => ⟨fun hnone => ?_, fun r hr => ?_⟩
  · obtain ⟨u, x, hu, rfl⟩ | ⟨-, rfl⟩ := (answers_of_exec h).touches
    · exact hu.cond hnone
    · rfl
  · obtain ⟨u, v, hexec⟩ | ⟨hop, hup, t', hexec, hcond⟩ := exec_of_condFrom hr
    · obtain rfl := Host.Outcome.next.inj (hexec.symm.trans h)
      exact .inl rfl
    · obtain rfl := Host.Outcome.next.inj (hexec.symm.trans h)
      exact .inr ⟨hop, hup, hcond⟩

/-! ### One step -/

/-- A step answers the state itself, or what operations of an instruction make of the state after the fetch, run
status and PC aside. -/
theorem step_cases (h : step s = .next t) :
    t = s ∨ ∃ i u x v, Touches i s.fetch.2 u ∧ t = (u.setPc v).setStatus x := by
  by_cases hrun : s.status = .running
  · obtain ⟨u, x, hu, rfl⟩ | ⟨-, rfl⟩ := (answers_of_step hrun h).touches
    · exact .inr ⟨_, u, x, u.pc, hu, rfl⟩
    · exact .inr ⟨.rti 0, s.fetch.2, s.fetch.2.status, s.fetch.2.pc - 1, .refl, rfl⟩
  · exact .inl (Host.Outcome.next.inj ((step_of_status_ne_running hrun).symm.trans h)).symm

theorem step_answers (s : State) : ∃ t, step s = .next t := by
  by_cases hrun : s.status = .running
  · obtain ⟨t, ht, -⟩ := exec_answers (decode (s.memRead s.pc).1) s.fetch.2
    exact ⟨t, (step_of_status_running hrun).trans ht⟩
  · exact ⟨s, step_of_status_ne_running hrun⟩

/-- No step writes a parameter of the launch (R11 to R19). -/
theorem step_params (h : step s = .next t) : t.params = s.params := by
  obtain rfl | ⟨i, u, x, v, hu, rfl⟩ := step_cases h
  · rfl
  · exact hu.params.trans s.fetch_params

/-- A step keeps the canonical form of memory. -/
theorem step_wf (h : step s = .next t) (hs : s.mem.wf = true) : t.mem.wf = true := by
  obtain rfl | ⟨i, u, x, v, hu, rfl⟩ := step_cases h
  · exact hs
  · exact hu.wf (s.memRead_wf s.pc hs)

/-- Settles O18: a step always answers, and it keeps both parts of the invariant. -/
theorem everyStepKeepsTheInvariant : Obligations.EveryStepKeepsTheInvariant := by
  rintro s ⟨hmem, hparams⟩
  obtain ⟨t, ht⟩ := step_answers s
  exact ⟨t, ht, ⟨step_wf ht hmem, (step_params ht).symm ▸ hparams⟩, step_params ht⟩

/-- Settles O19: nothing is loaded at reset, and the default addresses differ. -/
theorem resetMeetsTheInvariant : Obligations.ResetMeetsTheInvariant := ⟨rfl, rfl⟩

/-- Settles O21: the operations only append to the output. -/
theorem outputIsAppendOnly : Obligations.OutputIsAppendOnly := by
  intro s t h
  obtain rfl | ⟨i, u, x, v, hu, rfl⟩ := step_cases h
  · exact ⟨[], (List.append_nil _).symm⟩
  · obtain ⟨bs, hbs⟩ := hu.output
    exact ⟨bs, by rwa [State.fetch_output] at hbs⟩

/-- Settles O22: the fetch and the operations take input bytes from the front only. -/
theorem inputIsTakenInOrder : Obligations.InputIsTakenInOrder := by
  intro s t h
  obtain rfl | ⟨i, u, x, v, hu, rfl⟩ := step_cases h
  · exact Input.LeftOf.refl _
  · exact (s.leftOf_memRead s.pc).trans hu.input

/-! ### How a run ends -/

/-- A zero-extended byte has a clear top nibble. -/
theorem opcode_zext (b : Byte) : opcode (zext b) = .br := by
  have hb := b.isLt
  have hnibble : (zext b).extractLsb' 12 4 = 0 := BitVec.eq_of_toNat_eq (by
    rw [toNat_extractLsb'_nibble, zext, BitVec.toNat_setWidth_of_le (by decide)]
    exact Nat.div_eq_of_lt (by omega))
  rw [opcode, hnibble]
  rfl

/-- What a poll leaves in the status cell has no TRAP's opcode, even when the data cell is the same cell. -/
theorem State.opcode_keyboardPoll_ne_trap (s : State) :
    opcode (s.keyboardPoll.cell s.params.kbsrAddr) ≠ .trap := by
  obtain ⟨i, -, h⟩ | ⟨b, i, -, h⟩ := s.keyboardPoll_cases
  · rw [h, State.cell_setCell_same]
    decide
  · rw [h, State.cell_setCell, State.cell_setCell_same]
    split
    · rw [opcode_zext]
      decide
    · decide

/-- A fetch that finds a TRAP has not polled. -/
theorem State.memRead_of_opcode_trap {s : State} {a : Word} (h : opcode (s.memRead a).1 = .trap) : s.memRead a = (s.cell a, s) := by
  obtain ⟨-, hread⟩ | ⟨ha, hread⟩ := s.memRead_cases a
  · exact hread
  · rw [hread, ha] at h
    exact absurd h s.opcode_keyboardPoll_ne_trap

/-- How a Running state stops: HALT, or a fault, whose state is then the one at the fault. -/
theorem Answers.of_status_ne (h : Answers i s t) (hs : t.status ≠ s.status) :
    ((∃ ign, i = .trapHalt ign) ∧ t.status = .halted) ∨
    ∃ f, FaultCause s i f ∧ t = (s.out (i.prompt s.params)).raiseFault f (encode i) := by
  cases h with
  | completes h => exact absurd h.status hs
  | halts hi _ => exact .inl ⟨⟨_, hi⟩, rfl⟩
  | faults hf => exact .inr ⟨_, hf, rfl⟩
  | stays _ => exact absurd rfl hs

/-- A word has the bits that the row of its instruction fixes. -/
theorem and_mask_of_decode {w : Word} {i : Instr} (h : decode w = i) : w &&& i.row.mask = i.row.value := by
  have hrow := row_covers_encode (decode w)
  rw [encode_decode, h] at hrow
  exact beq_iff_eq.mp hrow

theorem not_recognised_of_decode {w : Word} {ign : BitVec 4} {code : BitVec 8}
    (h : decode w = .trapUnknown ign code) : w.extractLsb' 0 8 ∉ recognisedTrapCodes := by
  obtain ⟨-, -, hcode⟩ := encodeTRAP_fields ign code
  have hwf := wellFormed_decode w
  rw [eq_encode_of_decode_eq h, encode, hcode]
  simpa [h, Instr.wellFormed, isRecognisedTrapCode] using hwf

/-- A fetch that finds a TRAP leaves the input as it was. -/
theorem State.fetch_input_of_trap {s : State} (h : opcode (s.memRead s.pc).1 = .trap) :
    s.fetch.2.input = s.input := by
  rw [State.fetch_input, State.memRead_of_opcode_trap h]

theorem opcode_of_decode {w : Word} {i : Instr} (h : decode w = i) : opcode w = i.opcode :=
  h ▸ (opcode_decode w).symm

/-- Settles O20: a run ends by HALT or by the cause of a fault, and the instruction tells the word. -/
theorem onlyHaltAndFaultsEndARun : Obligations.OnlyHaltAndFaultsEndARun := by
  intro s t hrun h hstatus
  have hne : t.status ≠ s.fetch.2.status := by rwa [State.fetch_status, hrun]
  obtain ⟨⟨ign, hi⟩, hhalted⟩ | ⟨f, hf, ht⟩ := (answers_of_step hrun h).of_status_ne hne
  · exact .inl ⟨and_mask_of_decode hi, hhalted⟩
  · have hfaulted : t.status = .faulted f (s.memRead s.pc).1 := by
      rw [ht, State.raiseFault_status, encode_decode]
    refine .inr ?_
    generalize hi : decode (s.memRead s.pc).1 = i at *
    cases hf with
    | rti ign => exact .inl ⟨.inl (opcode_of_decode hi), hfaulted⟩
    | res ign => exact .inl ⟨.inr (opcode_of_decode hi), hfaulted⟩
    | trapUnknown ign code =>
      exact .inr (.inl ⟨opcode_of_decode hi, not_recognised_of_decode hi, hfaulted⟩)
    | trapGetc ign hup hended =>
      rw [State.fetch_input_of_trap (opcode_of_decode hi)] at hup hended
      exact .inr (.inr ⟨.inl (and_mask_of_decode hi), hup, hended, hfaulted⟩)
    | trapIn ign hup hended =>
      rw [State.fetch_input_of_trap (opcode_of_decode hi)] at hup hended
      exact .inr (.inr ⟨.inr (and_mask_of_decode hi), hup, hended, hfaulted⟩)

/-- IN is the one instruction with a prompt, and its row has no other word. -/
theorem prompt_decode (p : Params) (w : Word) :
    (decode w).prompt p = if w &&& 0xF0FF = 0xF023 then p.inPrompt else [] := by
  by_cases hw : w &&& 0xF0FF = 0xF023
  · have hrow : (decode w).row = ⟨"TRAP_IN", 0xF0FF, 0xF023⟩ :=
      row_decode_of_covers (by decide) (beq_iff_eq.mpr hw)
    rw [if_pos hw]
    cases hi : decode w with
    | trapIn ign => rfl
    | _ => simp [hi, Instr.row] at hrow
  · rw [if_neg hw]
    cases hi : decode w with
    | trapIn ign => exact absurd (and_mask_of_decode hi) hw
    | _ => rfl

/-- Settles O27: the state at a fault is the one the fetch left, with the prompt of IN written. -/
theorem faultsArePrecise : Obligations.FaultsArePrecise := by
  intro s t r w hrun h hfault
  have hne : t.status ≠ s.fetch.2.status := by simp [hfault, hrun]
  obtain ⟨-, hhalted⟩ | ⟨f, -, rfl⟩ := (answers_of_step hrun h).of_status_ne hne
  · exact absurd (hhalted.symm.trans hfault) (by simp)
  · obtain ⟨-, rfl⟩ : f = r ∧ (s.memRead s.pc).1 = w := by simpa [encode_decode] using hfault
    refine ⟨rfl, rfl, s.fetch_cond, fun a => rfl, rfl, fun q _ => s.fetch_reg q, ?_, s.fetch_params⟩
    rw [State.raiseFault_output, State.out_output, State.fetch_output, State.fetch_params, prompt_decode]

theorem run_succ_of_step (h : step s = .next t) (k : Nat) :
    Host.Core.run core (k + 1) s = Host.Core.run core k t := by
  have hstep : core.step s = .next t := h
  simp only [Host.Core.run, hstep]

theorem run_of_status_ne_running (h : s.status ≠ .running) (k : Nat) :
    Host.Core.run core k s = .next s := by
  induction k with
  | zero => rfl
  | succ k ih => exact (run_succ_of_step (step_of_status_ne_running h) k).trans ih

/-- Settles O17: after the step that ends the run, every step answers the same state. -/
theorem endedRunsStay : Obligations.EndedRunsStay :=
  fun k _ _ _ h hended => (run_succ_of_step h k).trans (run_of_status_ne_running hended k)

end Sys2Proof.Machine
end

section
/-! PROOFS. The trap routines (44_trap.md): GETC and IN by what `InByte()` finds, PUTS and PUTSP by their loop,
and the unrecognised codes. -/

namespace Sys2Proof.Machine

variable {s t : State}

/-! ### GETC and IN -/

theorem zext_eq_zero_iff (b : Byte) : zext b = 0 ↔ b = 0 := by
  rw [← BitVec.toNat_inj, ← BitVec.toNat_inj, zext, BitVec.toNat_setWidth_of_le (by decide)]
  rfl

/-- A zero-extended byte is negative for no byte (R37, R217). -/
theorem condOf_zext (b : Byte) : condOf (zext b) = if b = 0 then .zro else .pos := by
  by_cases hb : b = 0
  · rw [if_pos hb, hb]
    rfl
  · rw [if_neg hb]
    exact condOf_of_sign_clear (by simp [zext]) (mt (zext_eq_zero_iff b).mp hb)

theorem State.readCharacter_of_byte {k : Keystroke} {ks : List Keystroke} (h : s.input.upcoming = k :: ks)
    (prompt : List Byte) (echo : Bool) (w : Word) :
    s.readCharacter prompt echo w =
      (((s.trapLink.out prompt).setInput { s.input with keys := ks }).out
        (if echo then [k.byte] else [])).writeAndUpdate .r0 (zext k.byte) := by
  simp only [State.readCharacter, Input.inByte, h]

theorem State.readCharacter_of_exhausted (hup : s.input.upcoming = []) (hended : s.input.ended = true)
    (prompt : List Byte) (echo : Bool) (w : Word) :
    s.readCharacter prompt echo w = (s.out prompt).raiseFault .inputExhausted w := by
  simp only [State.readCharacter, Input.inByte, hup, hended, if_true]

theorem State.readCharacter_of_waits (hup : s.input.upcoming = []) (hended : s.input.ended = false)
    (prompt : List Byte) (echo : Bool) (w : Word) : s.readCharacter prompt echo w = s.stepNotTaken := by
  simp [State.readCharacter, Input.inByte, hup, hended]

/-- What GETC and IN leave when a byte is still to come (R215, R222). -/
theorem readCharacter_leaves {k : Keystroke} {ks : List Keystroke} (h : s.input.upcoming = k :: ks)
    (prompt : List Byte) (echo : Bool) (w : Word) :
    (s.readCharacter prompt echo w).reg .r0 = BitVec.ofNat 16 k.byte.toNat ∧
    (s.readCharacter prompt echo w).cond = (if k.byte = 0 then .zro else .pos) ∧
    LinkedRegsBut [.r0] s (s.readCharacter prompt echo w) ∧ (s.readCharacter prompt echo w).pc = s.pc ∧
    SameCellsBut [] s (s.readCharacter prompt echo w) ∧
    (s.readCharacter prompt echo w).input = { s.input with keys := ks } ∧
    (s.readCharacter prompt echo w).output = s.output ++ prompt ++ (if echo then [k.byte] else []) ∧
    SameRun s (s.readCharacter prompt echo w) := by
  rw [State.readCharacter_of_byte h]
  refine ⟨?_, ?_, fun q hq => ?_, s.trapLink_pc, fun a _ => s.trapLink_cell a, rfl, ?_, s.trapLink_status,
    s.trapLink_params⟩
  · rw [State.reg_writeAndUpdate_same, zext_eq_ofNat]
  · rw [State.cond_writeAndUpdate, condOf_zext]
  · rw [State.reg_writeAndUpdate, if_neg (List.ne_of_not_mem_cons hq)]
    exact s.trapLink_reg q
  · simp

/-- Settles O42: GETC is `readCharacter` with neither prompt nor echo. -/
theorem getcTakesTheNextByte : Obligations.GetcTakesTheNextByte :=
  fun ign => ⟨decode_encode (i := .trapGetc ign) rfl, fun s _ _ hup =>
    ⟨_, rfl, by simpa using readCharacter_leaves hup [] false (encode (.trapGetc ign))⟩⟩

/-- Settles O48: IN is `readCharacter` with the prompt and the echo. -/
theorem inPromptsEchoesAndStores : Obligations.InPromptsEchoesAndStores :=
  fun ign => ⟨decode_encode (i := .trapIn ign) rfl, fun s _ _ hup =>
    ⟨_, rfl, readCharacter_leaves hup s.params.inPrompt true (encode (.trapIn ign))⟩⟩

/-- A fault with a prompt written before it changes the output and the status only. -/
theorem out_raiseFault_leaves (s : State) (bs : List Byte) (f : Fault) (w : Word) :
    ((s.out bs).raiseFault f w).reg .r0 = s.reg .r0 ∧ ((s.out bs).raiseFault f w).cond = s.cond ∧
    ((s.out bs).raiseFault f w).pc = s.pc ∧ SameCellsBut [] s ((s.out bs).raiseFault f w) ∧
    ((s.out bs).raiseFault f w).input = s.input ∧ ((s.out bs).raiseFault f w).params = s.params ∧
    SameRegsBut [] s ((s.out bs).raiseFault f w) :=
  ⟨rfl, rfl, rfl, fun _ _ => rfl, rfl, rfl, fun _ _ => rfl⟩

/-- Settles O49: with no byte left and the input ended, GETC and IN are the fault after the prompt. -/
theorem inputExhaustedFaults : Obligations.InputExhaustedFaults := by
  intro ign s hup hended
  have hgetc : exec (.trapGetc ign) s = .next ((s.out []).raiseFault .inputExhausted (encode (.trapGetc ign))) :=
    congrArg Host.Outcome.next (State.readCharacter_of_exhausted hup hended [] false _)
  have hin : exec (.trapIn ign) s =
      .next ((s.out s.params.inPrompt).raiseFault .inputExhausted (encode (.trapIn ign))) :=
    congrArg Host.Outcome.next (State.readCharacter_of_exhausted hup hended s.params.inPrompt true _)
  refine ⟨_, _, hgetc, hin, State.raiseFault_status _ _ _, State.raiseFault_status _ _ _, ?_,
    State.out_output _ _, fun v hv => ?_⟩
  · exact (State.raiseFault_output _ _ _).trans (List.append_nil _)
  · simp only [List.mem_cons, List.not_mem_nil, or_false] at hv
    obtain rfl | rfl := hv <;> exact out_raiseFault_leaves s _ _ _

/-- Settles O52: a code outside the table is decoded to the unrecognised row, whose word is the one recorded. -/
theorem unknownTrapCodeFaults : Obligations.UnknownTrapCodeFaults := by
  intro ign code hcode
  have hwf : (Instr.trapUnknown ign code).wellFormed = true := by
    simpa [Instr.wellFormed, isRecognisedTrapCode, recognisedTrapCodes] using hcode
  exact ⟨decode_encode (i := .trapUnknown ign code) hwf, fun s => rfl⟩

/-! ### PUTS and PUTSP -/

theorem highByte_eq_ofNat (v : Word) : highByte v = BitVec.ofNat 8 (v.toNat / 256) :=
  BitVec.eq_of_toNat_eq (by simp [highByte, Nat.shiftRight_eq_div_pow])

theorem highByte_eq_zero_iff (v : Word) : highByte v = 0 ↔ v.toNat / 256 = 0 := by
  have hv := v.isLt
  rw [highByte_eq_ofNat, ← BitVec.toNat_inj, BitVec.toNat_ofNat, Nat.mod_eq_of_lt (by omega)]
  rfl

/-- The bytes of PUTSP as the spec computes them (R223). -/
theorem putspBytes_eq (v : Word) :
    putspBytes v = BitVec.ofNat 8 (v.toNat % 256) ::
      (if v.toNat / 256 = 0 then [] else [BitVec.ofNat 8 (v.toNat / 256)]) := by
  by_cases h : highByte v = 0
  · rw [putspBytes, if_pos h, if_pos ((highByte_eq_zero_iff v).mp h), lowByte_eq_ofNat]
  · rw [putspBytes, if_neg h, if_neg (mt (highByte_eq_zero_iff v).mpr h), lowByte_eq_ofNat, highByte_eq_ofNat]

/-- Settles O44: the loop over the string writes one byte for each cell, after the link. -/
theorem putsWritesOneBytePerCell : Obligations.PutsWritesOneBytePerCell := by
  refine fun ign => ⟨decode_encode (i := .trapPuts ign) rfl, fun s k hk hn hz => ?_⟩
  have hexec : exec (.trapPuts ign) s = .next _ :=
    congrArg Host.Outcome.next (s.writeString_string putsBytes k hk hn hz)
  simp only [putsBytes, lowByte_eq_ofNat, ← List.map_eq_flatMap] at hexec
  exact ⟨_, hexec, trapLink_out_leaves s _⟩

/-- Settles O45: the loop over the string writes one or two bytes for each cell, after the link. -/
theorem putspWritesTwoBytesPerCell : Obligations.PutspWritesTwoBytesPerCell := by
  refine fun ign => ⟨decode_encode (i := .trapPutsp ign) rfl, fun s k hk hn hz => ?_⟩
  have hexec : exec (.trapPutsp ign) s = .next _ :=
    congrArg Host.Outcome.next (s.writeString_string putspBytes k hk hn hz)
  simp only [putspBytes_eq] at hexec
  exact ⟨_, hexec, trapLink_out_leaves s _⟩

/-- PUTS and PUTSP end where their loop ends, whatever number of cells that takes. -/
theorem State.writeString_of_scan {bytes : Word → List Byte} {n : Nat}
    (h : scanString bytes n (s.reg .r0) s.trapLink = some t) : s.writeString bytes = t := by
  obtain ⟨u, hu, hend⟩ | ⟨hnone, -⟩ := s.writeString_cases bytes
  · have hu' := scanString_mono bytes (Nat.le_max_left (scanFuel s) n) _ _ _ hu
    have ht' := scanString_mono bytes (Nat.le_max_right (scanFuel s) n) _ _ _ h
    exact hend.trans (Option.some.inj (hu'.symm.trans ht'))
  · exact absurd ((hnone n).symm.trans h) (by simp)

theorem State.writeString_of_no_scan {bytes : Word → List Byte}
    (h : ∀ n, scanString bytes n (s.reg .r0) s.trapLink = none) : s.writeString bytes = s.stepNotTaken := by
  rw [State.writeString, h]
  rfl

/-- Settles O46: more fuel changes no end of the loop, and `writeString` stays when no fuel ends it. -/
theorem stringOutputIsTheWholeLoop : Obligations.StringOutputIsTheWholeLoop := fun _ _ =>
  ⟨fun _ _ h => congrArg Host.Outcome.next (State.writeString_of_scan h),
    fun h => congrArg Host.Outcome.next (State.writeString_of_no_scan h),
    fun _ _ h => congrArg Host.Outcome.next (State.writeString_of_scan h),
    fun h => congrArg Host.Outcome.next (State.writeString_of_no_scan h)⟩

/-- A string output that ends leaves PC, COND and the status, and no register but the link. -/
theorem writeString_leaves_of_endless_none (bytes : Word → List Byte) (h : s.input.endless = none) :
    (s.writeString bytes).pc = s.pc ∧ (s.writeString bytes).cond = s.cond ∧
    (s.writeString bytes).status = s.status ∧ LinkedRegsBut [] s (s.writeString bytes) := by
  obtain ⟨t, ht⟩ := scanString_ends bytes (s.reg .r0) s.trapLink (by rwa [State.trapLink_input])
  obtain ⟨hregs, hpc, hcond, hstatus, -⟩ := scanString_frame bytes _ _ _ _ ht
  rw [State.writeString_of_scan ht]
  refine ⟨hpc.trans s.trapLink_pc, hcond.trans s.trapLink_cond, hstatus.trans s.trapLink_status, fun q _ => ?_⟩
  rw [State.reg, hregs]
  exact s.trapLink_reg q

/-- Settles O47: with finite input the loop ends, and its frame is that of the link. -/
theorem stringOutputEndsWithFiniteInput : Obligations.StringOutputEndsWithFiniteInput := fun _ _ h =>
  ⟨⟨_, rfl, writeString_leaves_of_endless_none putsBytes h⟩,
    ⟨_, rfl, writeString_leaves_of_endless_none putspBytes h⟩⟩

/-! ### Steps without an outcome -/

/-- A TRAP that has no outcome leaves the state before its fetch, which did not poll. -/
theorem State.stepNotTaken_fetch (h : opcode (s.memRead s.pc).1 = .trap) : s.fetch.2.stepNotTaken = s := by
  rw [State.stepNotTaken, State.fetch_pc, BitVec.add_sub_cancel, State.fetch, State.memRead_of_opcode_trap h]
  rfl

theorem step_of_stepNotTaken {i : Instr} (hrun : s.status = .running) (hi : decode (s.memRead s.pc).1 = i)
    (hop : i.opcode = .trap) (h : exec i s.fetch.2 = .next s.fetch.2.stepNotTaken) : step s = .next s := by
  have hstep : step s = exec (decode (s.memRead s.pc).1) s.fetch.2 := step_of_status_running hrun
  rw [hstep, hi, h, State.stepNotTaken_fetch ((opcode_of_decode hi).trans hop)]

/-- GETC and IN wait after the fetch when they would wait before it. -/
theorem State.readCharacter_fetch_of_waits (h : opcode (s.memRead s.pc).1 = .trap)
    (hup : s.input.upcoming = []) (hended : s.input.ended = false) (prompt : List Byte) (echo : Bool)
    (w : Word) : s.fetch.2.readCharacter prompt echo w = s.fetch.2.stepNotTaken := by
  rw [← State.fetch_input_of_trap h] at hup hended
  exact State.readCharacter_of_waits hup hended prompt echo w

/-- Settles O50: the word is a TRAP, whose fetch only advances PC, so what its meaning answers when it has no
outcome is the state before it. -/
theorem stepsWithoutOutcomeStay : Obligations.StepsWithoutOutcomeStay := by
  intro s ign hrun _ h
  obtain ⟨hi | hi, hup, hended⟩ | ⟨hi, hscan⟩ | ⟨hi, hscan⟩ := h
  · exact step_of_stepNotTaken hrun hi rfl (congrArg Host.Outcome.next
      (State.readCharacter_fetch_of_waits (opcode_of_decode hi) hup hended _ _ _))
  · exact step_of_stepNotTaken hrun hi rfl (congrArg Host.Outcome.next
      (State.readCharacter_fetch_of_waits (opcode_of_decode hi) hup hended _ _ _))
  · rw [← s.fetch_reg] at hscan
    exact step_of_stepNotTaken hrun hi rfl (congrArg Host.Outcome.next (State.writeString_of_no_scan hscan))
  · rw [← s.fetch_reg] at hscan
    exact step_of_stepNotTaken hrun hi rfl (congrArg Host.Outcome.next (State.writeString_of_no_scan hscan))

end Sys2Proof.Machine
end

section
/-! PROOFS. Reset, the loader and the launch (70_reset_and_hazards.md), and what the host may do between two
steps (R252). -/

namespace Sys2Proof.Machine

/-! ### The image's bytes -/

/-- The two bytes of a word in an image, the high one first (R67). -/
def wordBytes (w : Word) : List Byte := [BitVec.ofNat 8 (w.toNat / 256), BitVec.ofNat 8 (w.toNat % 256)]

theorem ofNat_high_append_low (w : Word) :
    BitVec.ofNat 8 (w.toNat / 256) ++ BitVec.ofNat 8 (w.toNat % 256) = w := by
  rw [← highByte_eq_ofNat, ← lowByte_eq_ofNat]
  exact BitVec.extractLsb'_append_extractLsb'

theorem imageWords_of_length_le_one {tail : List Byte} (h : tail.length ≤ 1) : imageWords tail = [] := by
  match tail with
  | [] => rfl
  | [_] => rfl
  | _ :: _ :: _ => simp at h

/-- The words of an image are the words it was made of, a trailing byte aside (R272). -/
theorem imageWords_flatMap (ws : List Word) {tail : List Byte} (h : tail.length ≤ 1) :
    imageWords (ws.flatMap wordBytes ++ tail) = ws := by
  induction ws with
  | nil => exact imageWords_of_length_le_one h
  | cons w ws ih =>
    rw [List.flatMap_cons, wordBytes, List.append_assoc, List.cons_append, List.cons_append, List.nil_append,
      imageWords, ih, ofNat_high_append_low]

theorem loadImage_flatMap (origin : Word) (ws : List Word) {tail : List Byte} (h : tail.length ≤ 1)
    (m : Memory) :
    loadImage ((origin :: ws).flatMap wordBytes ++ tail) m = loadWords origin.toNat ws m := by
  simp only [loadImage, imageWords_flatMap (origin :: ws) h]

/-! ### The words stored -/

theorem loadWords_cons_of_lt {a : Nat} (h : a < 65536) (w : Word) (ws : List Word) (m : Memory) :
    loadWords a (w :: ws) m = loadWords (a + 1) ws (m.write a w) := by
  simp only [loadWords, Memory.writeChecked, if_pos h]

theorem loadWords_cons_of_ge {a : Nat} (h : 65536 ≤ a) (w : Word) (ws : List Word) (m : Memory) :
    loadWords a (w :: ws) m = .error .addressOverflow := by
  simp only [loadWords, Memory.writeChecked, if_neg (Nat.not_lt.mpr h)]

/-- Words that fit are stored one after another, and no other cell is touched. -/
theorem loadWords_of_fits (ws : List Word) : ∀ (a : Nat) (m : Memory), a + ws.length ≤ 65536 →
    ∃ m', loadWords a ws m = .ok m' ∧ (∀ (j : Nat) (h : j < ws.length), m'.read (a + j) = ws[j]) ∧
      (∀ b, b < a ∨ a + ws.length ≤ b → m'.read b = m.read b) ∧ (m.wf = true → m'.wf = true) := by
  induction ws with
  | nil => exact fun a m _ => ⟨m, rfl, fun j h => absurd h (Nat.not_lt_zero j), fun _ _ => rfl, id⟩
  | cons w ws ih =>
    intro a m hfits
    rw [List.length_cons] at hfits
    obtain ⟨m', hload, hwords, hothers, hwf⟩ := ih (a + 1) (m.write a w) (by omega)
    refine ⟨m', (loadWords_cons_of_lt (by omega) w ws m).trans hload, fun j h => ?_, fun b hb => ?_,
      fun hm => hwf (Memory.wf_write m a w (by omega) hm)⟩
    · cases j with
      | zero => rw [Nat.add_zero, hothers a (.inl (Nat.lt_succ_self a)), Memory.read_write, if_pos rfl]; rfl
      | succ j =>
        rw [show a + (j + 1) = a + 1 + j by omega]
        exact hwords j (Nat.lt_of_succ_lt_succ h)
    · rw [List.length_cons] at hb
      rw [hothers b (by omega), Memory.read_write, if_neg (by omega)]

/-- Words that run past the last cell are a load error (R273). -/
theorem loadWords_of_overflow (ws : List Word) : ∀ (a : Nat) (m : Memory), a ≤ 65536 →
    65536 < a + ws.length → loadWords a ws m = .error .addressOverflow := by
  induction ws with
  | nil => exact fun a m ha hover => absurd hover (Nat.not_lt.mpr ha)
  | cons w ws ih =>
    intro a m ha hover
    rw [List.length_cons] at hover
    by_cases hlt : a < 65536
    · rw [loadWords_cons_of_lt hlt, ih (a + 1) _ (by omega) (by omega)]
    · exact loadWords_cons_of_ge (by omega) w ws m

/-! ### The launch -/

theorem launch_of_ok {p : Params} {i : Input} {image : List Byte} {m : Memory} (h : loadImage image [] = .ok m) :
    State.launch p image i = .ok ((State.resetWith p i).setMem m) := by
  simp only [State.launch, h]

theorem launch_of_error {p : Params} {i : Input} {image : List Byte} {e : LoadError}
    (h : loadImage image [] = .error e) : State.launch p image i = .error e := by
  simp only [State.launch, h]

/-- Settles O56: the words of the image are its words, and those that fit are stored into an empty memory. -/
theorem loadedImageReadsBack : Obligations.LoadedImageReadsBack := by
  refine ⟨fun p i origin ws tail htail hfits => ?_, fun p i bytes hshort => ?_⟩
  · obtain ⟨m, hload, hwords, hothers, hwf⟩ := loadWords_of_fits ws origin.toNat [] hfits
    refine ⟨_, launch_of_ok ((loadImage_flatMap origin ws htail []).trans hload), fun j h => ?_,
      fun a ha => hothers a.toNat ha, rfl, hwf rfl⟩
    rw [State.cell, BitVec.toNat_ofNat, Nat.mod_eq_of_lt (by omega)]
    exact hwords j h
  · have hload : loadImage bytes [] = .ok [] := by
      simp only [loadImage, imageWords_of_length_le_one (Nat.le_of_lt_succ hshort)]
    exact launch_of_ok hload

/-- Settles O57: the words of the image are its words, and one of them meets the end of memory. -/
theorem loadPastTheEndFails : Obligations.LoadPastTheEndFails :=
  fun _ _ origin ws _ htail hover => launch_of_error ((loadImage_flatMap origin ws htail []).trans
    (loadWords_of_overflow ws origin.toNat [] origin.isLt.le hover))

/-- Settles O58: the image is loaded and its one instruction run. -/
theorem firstScenarioAddsOne : Obligations.FirstScenarioAddsOne :=
  ⟨_, _, rfl, rfl, by decide, by decide, by decide, rfl⟩

/-! ### Reset and the host -/

/-- Settles O55: `resetWith` sets each field, and an empty memory reads 0. -/
theorem resetLeavesTheStartState : Obligations.ResetLeavesTheStartState :=
  ⟨fun _ _ => ⟨fun _ => rfl, rfl, rfl, fun _ => rfl, rfl, rfl, rfl, rfl⟩, rfl, rfl, rfl, rfl,
    fun r => by cases r <;> rfl⟩

theorem supply_of_ended {s : State} (h : s.input.ended = true) (k : Keystroke) : s.supply k = s := if_pos h

theorem supply_of_not_ended {s : State} (h : s.input.ended = false) (k : Keystroke) :
    s.supply k = s.setInput { s.input with keys := s.input.keys ++ [k] } := if_neg (by simp [h])

/-- Settles O54: either operation is no change at all or a new input. -/
theorem hostChangesInputOnly : Obligations.HostChangesInputOnly := by
  refine fun s k => ⟨?_, rfl, fun h => supply_of_ended h k, fun h => ?_⟩
  · cases h : s.input.ended with
    | true => rw [supply_of_ended h]
    | false =>
      rw [supply_of_not_ended h]
      rfl
  · rw [supply_of_not_ended h]
    exact ⟨rfl, rfl, h⟩

end Sys2Proof.Machine
end
